-- ==== Sys2Proof/Word.lean ====
section
/-! DEFINITION. The bit-vector types of FIBCORE, under the spec's names (00_scope.md R5, R6, R7).
All values are unsigned (40_bigint_arithmetic.md R65). -/

namespace Sys2Proof

/-- A word: 32 bits, bit 31 most significant (R5 `W`, R31). -/
abbrev Word := BitVec 32

/-- A FixedWidthUint: 24 words of 32 bits, 768 bits in all (R5 `K`, `WIDTH`; R7). It is held as the
vector `V` of 20_memory.md R33, which the ports and the registers CMD.a, CMD.b, RSP.val carry: word
`i` is bits `32*i + 31 : 32*i`, and the vector read as an unsigned number is `val`. -/
abbrev Fwu := BitVec 768

/-- The scalar field `k` of a command: 64 bits (R5 `K_BITS`). -/
abbrev Scalar := BitVec 64

/-- One character or one position of the digit buffer: 8 bits (42_decimal_formatter.md R131). -/
abbrev Byte := BitVec 8

/-- A carry or a borrow: 1 bit (10_state.md R18, R20). -/
abbrev Bit := BitVec 1

/-- The DEC digit buffer `D[0..231]`: position 0 is the units digit (42_decimal_formatter.md R121). -/
abbrev Buffer := Vector Byte 232

end Sys2Proof
end

