-- ==== Sys2Proof/Syntax.lean ====
section
/-! DEFINITION. Commands, operations and responses (30_encoding.md R45 to R56): the seven rows of
spec/opcode_table.json are the seven constructors of `Instr`. -/

namespace Sys2Proof

/-- The operation code of a command, 3 bits (30_encoding.md R45, R48). -/
abbrev Opcode := BitVec 3

/-- A command as it stands on the command channel and in the register CMD: always all four fields
(30_encoding.md R45; 10_state.md R14). -/
structure Command where
  op : Opcode
  a  : Fwu
  b  : Fwu
  k  : Scalar
  deriving DecidableEq, Repr, Inhabited

/-- The operations of 30_encoding.md R48, each with the fields its format reads (R49). A field the
format ignores is not part of the operation: a model must not read it (R50). -/
inductive Instr where
  /-- `add(a, b)`, op = 0, format VV (40_bigint_arithmetic.md R70). -/
  | add (a b : Fwu)
  /-- `sub(a, b)`, op = 1, format VV: a minus b (40_bigint_arithmetic.md R73). -/
  | sub (a b : Fwu)
  /-- `shift_words(a, s)`, op = 2, format VK, the count `s` in field `k` (40_bigint_arithmetic.md R78). -/
  | shlw (a : Fwu) (k : Scalar)
  /-- `mul(a, b)`, op = 3, format VV (40_bigint_arithmetic.md R82). -/
  | mul (a b : Fwu)
  /-- `fib(n)`, op = 4, format K, the index `n` in field `k` (41_fast_doubling_fib.md R109). -/
  | fib (k : Scalar)
  /-- `to_decimal(v)`, op = 5, format V, the value in field `a` (42_decimal_formatter.md R130). -/
  | dec (a : Fwu)
  /-- `from_small_integer(k)`, op = 6, format K (40_bigint_arithmetic.md R66). -/
  | seed (k : Scalar)
  deriving DecidableEq, Repr

/-- The four formats: which fields an operation reads (30_encoding.md R49). -/
inductive Format where
  | vv
  | vk
  | k
  | v
  deriving DecidableEq, Repr

/-- The result type of a response (10_state.md R15; 30_encoding.md R48, R51). -/
inductive RspKind where
  /-- bit 0: the result is in `val` -/
  | value
  /-- bit 1: the result is the text `str[0 .. len - 1]` -/
  | string
  deriving DecidableEq, Repr, Inhabited

/-- A response as it stands in the register RSP and on the response channel: always all four fields
(30_encoding.md R51; 10_state.md R15). Lane `q` of `str` is character `q`. -/
structure Response where
  kind : RspKind
  val  : Fwu
  len  : BitVec 8
  str  : Vector Byte 232
  deriving DecidableEq, Repr, Inhabited

namespace Instr

/-- The operation numbers of 30_encoding.md R48. -/
def opcode : Instr → Opcode
  | .add _ _  => 0
  | .sub _ _  => 1
  | .shlw _ _ => 2
  | .mul _ _  => 3
  | .fib _    => 4
  | .dec _    => 5
  | .seed _   => 6

/-- The mnemonics of 30_encoding.md R48. -/
def mnemonic : Instr → String
  | .add _ _  => "ADD"
  | .sub _ _  => "SUB"
  | .shlw _ _ => "SHLW"
  | .mul _ _  => "MUL"
  | .fib _    => "FIB"
  | .dec _    => "DEC"
  | .seed _   => "SEED"

/-- The format of each operation (30_encoding.md R48, R49). -/
def format : Instr → Format
  | .add _ _  => .vv
  | .sub _ _  => .vv
  | .shlw _ _ => .vk
  | .mul _ _  => .vv
  | .fib _    => .k
  | .dec _    => .v
  | .seed _   => .k

/-- The response kind of each operation (30_encoding.md R48). -/
def responseKind : Instr → RspKind
  | .add _ _  => .value
  | .sub _ _  => .value
  | .shlw _ _ => .value
  | .mul _ _  => .value
  | .fib _    => .value
  | .dec _    => .string
  | .seed _   => .value

/-! The pseudo-operations of 30_encoding.md R56, each one command and nothing more. -/

/-- `ZERO` is `SEED 0` (30_encoding.md R56). -/
abbrev zero : Instr := .seed 0

/-- `ONE` is `SEED 1` (30_encoding.md R56). -/
abbrev one : Instr := .seed 1

/-- `DBL y` is `ADD y, y` (30_encoding.md R56). -/
abbrev dbl (y : Fwu) : Instr := .add y y

/-- `SQR y` is `MUL y, y` (30_encoding.md R56). -/
abbrev sqr (y : Fwu) : Instr := .mul y y

/-- The operands in the document's argument order (30_encoding.md R55). -/
def operands : Instr → List Nat
  | .add a b  => [a.toNat, b.toNat]
  | .sub a b  => [a.toNat, b.toNat]
  | .shlw a k => [a.toNat, k.toNat]
  | .mul a b  => [a.toNat, b.toNat]
  | .fib k    => [k.toNat]
  | .dec a    => [a.toNat]
  | .seed k   => [k.toNat]

/-- One line of a command script, `<dst> = <MNEMONIC> <operand>, ...`, with the operands as decimal
literals (30_encoding.md R55). The name `dst` is host storage. -/
def script (dst : String) (i : Instr) : String :=
  dst ++ " = " ++ i.mnemonic ++ " " ++ ", ".intercalate (i.operands.map toString)

end Instr

end Sys2Proof
end

