-- ==== Sys2Proof/WellFormed.lean ====
section
/-! DEFINITION. Which commands are legal (30_encoding.md R52, R53): every value of `a`, `b` and `k`
with every `op` but the reserved one. The widths of the fields are in their types. -/

namespace Sys2Proof

/-- A command is legal unless its `op` is the reserved code 7 (30_encoding.md R52, R53). -/
def Command.wellFormed (c : Command) : Bool := c.op != 7

/-- An operation is legal unless its number is the reserved code (30_encoding.md R52). -/
def Instr.wellFormed (i : Instr) : Bool := i.opcode != 7

end Sys2Proof
end

