-- ==== Sys2Proof/Decode.lean ====
section
/-! DEFINITION. The packed command vector, the decoder, the encoder and the packed response vector
(30_encoding.md R46, R47, R48, R50, R52, R54, R57). -/

namespace Sys2Proof

/-- Why a vector is no command. -/
inductive DecodeError where
  /-- `op = 7` (30_encoding.md R52). -/
  | reservedOpcode
  /-- a bit above bit 1602 is set: there is no such bit on the command channel (30_encoding.md R46) -/
  | notACommandVector
  deriving DecidableEq, Repr

/-- The fields of the packed command vector `cmd[1602:0]` (30_encoding.md R46). -/
def unpackCommand (v : BitVec 1603) : Command where
  a  := v.extractLsb' 0 768
  b  := v.extractLsb' 768 768
  k  := v.extractLsb' 1536 64
  op := v.extractLsb' 1600 3

/-- The packed command vector `op * 2^1600 + k * 2^1536 + b * 2^768 + a` (30_encoding.md R46;
95_test_vectors.md section 6). -/
def packCommand (c : Command) : BitVec 1603 :=
  BitVec.ofNat 1603 (c.a.toNat + c.b.toNat * 2 ^ 768 + c.k.toNat * 2 ^ 1536 + c.op.toNat * 2 ^ 1600)

/-- A decoder reads `op` and looks it up (30_encoding.md R48, R54). Operands are taken at full width,
unsigned (R47). A field the format ignores is not read (R50). `op = 7` is reserved (R52). -/
def decodeCommand (c : Command) : Except DecodeError Instr :=
  match c.op.toNat with
  | 0 => .ok (.add c.a c.b)
  | 1 => .ok (.sub c.a c.b)
  | 2 => .ok (.shlw c.a c.k)
  | 3 => .ok (.mul c.a c.b)
  | 4 => .ok (.fib c.k)
  | 5 => .ok (.dec c.a)
  | 6 => .ok (.seed c.k)
  | _ => .error .reservedOpcode

/-- The operation in a packed command vector (30_encoding.md R46, R54). -/
def decode (v : BitVec 1603) : Except DecodeError Instr := decodeCommand (unpackCommand v)

/-- Decoding of any number at all, rejecting by name (30_encoding.md R46, R52). -/
def decodeNat (w : Nat) : Except DecodeError Instr :=
  if w < 2 ^ 1603 then decode (BitVec.ofNat 1603 w) else .error .notACommandVector

/-- What the decoder reads from an instruction of the opcode table whose bits are `w`: the packed
vector of 30_encoding.md R46, bit 0 least significant, the bits above `nbits` zero. -/
def decodeTableWord (nbits w : Nat) : Option Instr := (decodeNat (w % 2 ^ nbits)).toOption

/-! The encoder. A field the format ignores may hold anything (R50); the encoder drives it with 0, as
95_test_vectors.md section 6 does. -/

/-- The command of an operation (30_encoding.md R45, R47, R48, R49). -/
def commandOf (i : Instr) : Command :=
  match i with
  | .add a b  => { op := i.opcode, a := a, b := b, k := 0 }
  | .sub a b  => { op := i.opcode, a := a, b := b, k := 0 }
  | .shlw a k => { op := i.opcode, a := a, b := 0, k := k }
  | .mul a b  => { op := i.opcode, a := a, b := b, k := 0 }
  | .fib k    => { op := i.opcode, a := 0, b := 0, k := k }
  | .dec a    => { op := i.opcode, a := a, b := 0, k := 0 }
  | .seed k   => { op := i.opcode, a := 0, b := 0, k := k }

/-- The packed command vector of an operation (30_encoding.md R46). -/
def encode (i : Instr) : BitVec 1603 := packCommand (commandOf i)

/-! The response vector (30_encoding.md R57). -/

/-- The bit of a response kind: VALUE = 0, STRING = 1 (30_encoding.md R51). -/
def kindBit : RspKind → Bit
  | .value  => 0
  | .string => 1

/-- The bytes of a list, lane 0 in the lowest bits (30_encoding.md R57). -/
def packLanes : List Byte → Nat
  | []      => 0
  | q :: qs => q.toNat + 256 * packLanes qs

/-- The packed response vector `kind * 2^2632 + len * 2^2624 + str * 2^768 + val`
(30_encoding.md R57; 95_test_vectors.md P3). -/
def packResponse (r : Response) : BitVec 2633 :=
  BitVec.ofNat 2633 (r.val.toNat + packLanes r.str.toList * 2 ^ 768 + r.len.toNat * 2 ^ 2624
    + (kindBit r.kind).toNat * 2 ^ 2632)

end Sys2Proof
end

