-- ==== Sys2Proof/Machine/Local.lean ====
section
/-! DEFINITION. The operation-local working storage LOCAL (10_state.md R17 to R20): the variables of
each operation's loop, as plain data. How they advance stands in Machine/Working.lean. -/

namespace Sys2Proof.Machine

/-- What one word position of ADD hands to the next: the carry `cy` and the result words so far
(10_state.md R18; 40_bigint_arithmetic.md R70). -/
structure AddWork where
  cy : Bit
  c  : Fwu
  deriving DecidableEq, Repr, Inhabited

/-- What one word position of SUB hands to the next: the borrow `bw` and the result words so far
(10_state.md R18; 40_bigint_arithmetic.md R73). -/
structure SubWork where
  bw : Bit
  c  : Fwu
  deriving DecidableEq, Repr, Inhabited

/-- The partial product `p` and its value `pp` of the last pair of MUL (10_state.md R18). -/
structure MulTemps where
  p  : BitVec 64
  pp : Fwu
  deriving DecidableEq, Repr, Inhabited

/-- The running pair of FIB (10_state.md R19). -/
structure FibPair where
  a : Fwu
  b : Fwu
  deriving DecidableEq, Repr, Inhabited

/-- The intermediates of one FIB iteration (10_state.md R19; 41_fast_doubling_fib.md R104). -/
structure FibTemps where
  t  : Fwu
  u  : Fwu
  c  : Fwu
  aa : Fwu
  bb : Fwu
  d  : Fwu
  e  : Fwu
  deriving DecidableEq, Repr, Inhabited

/-- What one scanned bit of DEC hands to the next: the digit buffer and the last decimal carry
(10_state.md R20). -/
structure DecWork where
  D  : Buffer
  dc : Bit
  deriving DecidableEq, Repr, Inhabited

/-- LOCAL: the working storage of the operation in progress (10_state.md R17). -/
inductive Local where
  /-- SHLW and SEED have no working state (10_state.md R18). -/
  | none
  /-- ADD before word position `i`; `i = 24` when the loop is over. -/
  | add (i : Nat) (w : AddWork)
  /-- SUB before word position `i`; `i = 24` when the loop is over. -/
  | sub (i : Nat) (w : SubWork)
  /-- MUL before the pair `(i, j)`; `i = 24` when every pair has been accumulated. -/
  | mul (i j : Nat) (acc : Fwu) (temps : MulTemps)
  /-- FIB with `left` bits of `n` still to be scanned: the bit index `i` of 10_state.md R19 is
  `left - 1`. -/
  | fib (n : Scalar) (left : Nat) (w : FibPair) (temps : FibTemps)
  /-- DEC with `left` bits still to be scanned: the bit cursor `(wi, bi)` of 10_state.md R20 is
  `((left - 1) / 32, (left - 1) % 32)`. -/
  | dec (left : Nat) (w : DecWork)
  deriving DecidableEq, Repr, Inhabited

end Sys2Proof.Machine
end

