-- ==== Sys2Proof/Machine/State.lean ====
section
/-! DEFINITION. The state of one FIBCORE instance, (phase, CMD, RSP, LOCAL) and nothing else of the
engine's (10_state.md R10), with what its host drives on the input ports; the reasons a step can stop;
and the state after reset (10_state.md R23). -/

namespace Sys2Proof.Machine

/-- The transaction phase (10_state.md R13). -/
inductive Phase where
  /-- no command held, none pending -/
  | idle
  /-- a command has been accepted and its response is not yet formed -/
  | busy
  /-- the response is formed and waits for the host to take it -/
  | done
  deriving DecidableEq, Repr, Inhabited

/-- What the host drives on the input ports in one cycle (50_host_interface.md R140). -/
structure Pins where
  rst      : Bool
  cmdValid : Bool
  cmdOp    : Opcode
  cmdA     : Fwu
  cmdB     : Fwu
  cmdK     : Scalar
  rspReady : Bool
  deriving DecidableEq, Repr, Inhabited

/-- FIBCORE has no fault: no operation raises, and there is no output to report one on
(60_exceptions.md R160, R164). -/
inductive Fault where
  deriving DecidableEq, Repr

/-- Why a step has no meaning: the two inputs to which the spec gives none (60_exceptions.md R161,
rows 7 and 8), and the time before the first reset (70_reset_and_hazards.md R182). -/
inductive Refusal where
  /-- Raised by an arm of `exec` that has no meaning yet: none is left.
  Safe: nothing can be proved of a state after it. -/
  | notModelled (mnemonic : String)
  /-- Raised by `step` where a command with the reserved `op = 7` is accepted, or would complete
  (30_encoding.md R52).
  Safe: the spec gives it no meaning, and nothing can be proved of a state after it. -/
  | reservedOpcode
  /-- Raised by `step` in a cycle in which the host withdraws or changes a command it has offered and
  that has not been accepted (70_reset_and_hazards.md R186).
  Safe: the spec says nothing about what follows. -/
  | unstableCommand
  /-- Raised by `step` in a cycle of `rst = 0` before the first cycle of `rst = 1` after power-up
  (70_reset_and_hazards.md R182; 93_implementation_defined.md U7).
  Safe: no rule of the spec applies then, and nothing can be proved of a state after it. -/
  | neverReset
  deriving DecidableEq, Repr

/-- The state. The first four fields are the engine's (10_state.md R10); `wait` counts down the open
latency of the command in progress; `wasReset` marks the end of power-up; the last three are the model's own
(log entries 4, 6, 7). -/
structure State where
  /-- 10_state.md R13 -/
  phase  : Phase
  /-- CMD, meaningful only in BUSY (10_state.md R14) -/
  cmd    : Command
  /-- RSP, meaningful only in DONE (10_state.md R15) -/
  rsp    : Response
  /-- LOCAL, meaningful only in BUSY (10_state.md R17) -/
  loc    : Local
  /-- BUSY cycles still to pass before the completing one (70_reset_and_hazards.md R192) -/
  wait   : Nat
  /-- a cycle of `rst = 1` has passed since power-up (70_reset_and_hazards.md R182; log entry 17) -/
  wasReset : Bool
  /-- the index of the free values drawn at this edge: every edge advances it -/
  free   : Nat
  /-- what the host drives, this cycle first -/
  inputs : List Pins
  /-- the command the host has offered and that has not been accepted (70_reset_and_hazards.md R186) -/
  offer  : Option Command
  deriving DecidableEq, Repr

/-- The machine right after reset (10_state.md R23): `phase = IDLE`, and a reset has passed (log entry 17). The
spec gives no other field a value; what they hold here is the model's choice (log entries 1 to 7). -/
def State.reset : State where
  phase  := .idle
  cmd    := { op := 0, a := 0, b := 0, k := 0 }
  rsp    := { kind := .value, val := 0, len := 0, str := Vector.replicate 232 0 }
  loc    := .none
  wait   := 0
  wasReset := true
  free   := 0
  inputs := []
  offer  := none

/-- The machine at power-up, before its first reset: any content at all, `phase` included
(70_reset_and_hazards.md R182). -/
def State.powerUp (content : State) : State := { content with wasReset := false }

end Sys2Proof.Machine
end

