-- ==== Sys2Proof/Config.lean ====
section
/-! DEFINITION. What an implementation fixes and what the spec leaves open. The constants below have no
body: nothing can be proved about their values, so a statement that mentions one holds whatever it is.
The free values are drawn at the index `State.free`, which every edge advances (log entry 4). -/

namespace Sys2Proof.Config

open Sys2Proof.Machine

/-- The open parameter LATENCY (70_reset_and_hazards.md R192), counted as the BUSY cycles before the
completing one: a command is BUSY for `latency c + 1` cycles, so its latency is positive and finite
(log entry 5). -/
opaque latency : Command → Nat

/-- How many loop iterations the engine performs in a BUSY cycle that does not complete
(50_host_interface.md R143: LOCAL may change; log entry 9). -/
opaque freeWork : Nat → Nat

/-- The content of CMD where it is unspecified (10_state.md R14, R23; 70_reset_and_hazards.md R180). -/
opaque freeCommand : Nat → Command

/-- The content of RSP where it is unspecified (10_state.md R15, R23; 70_reset_and_hazards.md R180). -/
opaque freeResponse : Nat → Response

/-- The response outputs while `rsp_valid = 0` (50_host_interface.md R147). -/
opaque freeOutput : Nat → Response

/-- The content of LOCAL where it is unspecified (10_state.md R17, R23; 70_reset_and_hazards.md R180). -/
opaque freeLocal : Nat → Local

/-- The temporaries `p`, `pp` of MUL before their first write (10_state.md R18 gives no value). -/
opaque freeMulTemps : Nat → MulTemps

/-- The temporaries of FIB before their first write (10_state.md R19: no initial value). -/
opaque freeFibTemps : Nat → FibTemps

/-- The largest index the front end may pass to FIB (00_scope.md R5 `N_MAX`): a duty of the host, not a
check of the engine (41_fast_doubling_fib.md R107). -/
def nMax : Nat := 1000

end Sys2Proof.Config
end

