-- ==== Sys2Proof/Machine/Operands.lean ====
section
/-! DEFINITION. The two counted loops of the pseudocode (00_scope.md R8), the index spaces inside a value
and how they map onto bits (20_memory.md R31 to R34), FixedWidthUint notation (00_scope.md R7), and the
two forms of a response (50_host_interface.md R145). -/

namespace Sys2Proof.Machine

/-! Loops. -/

/-- `for i from 0 to n - 1: s <- body i s` (00_scope.md R8). -/
def forUp {σ : Type} (body : Nat → σ → σ) (s : σ) : Nat → σ
  | 0     => s
  | n + 1 => body n (forUp body s n)

/-- `for i from n - 1 downto 0: s <- body i s` (00_scope.md R8). -/
def forDown {σ : Type} (body : Nat → σ → σ) : Nat → σ → σ
  | 0,     s => s
  | n + 1, s => forDown body n (body n s)

/-! Words of a FixedWidthUint. -/

/-- `a.w[i]`: bits `32*i + 31 : 32*i` (20_memory.md R33). -/
def wordAt (a : Fwu) (i : Nat) : Word := a.extractLsb' (32 * i) 32

/-- `c.w[i] <- x` in a loop that writes the words from 0 up: the words below `i` stay, word `i` is `x`, and
the words above, which the loop has yet to write, are 0. A word index above 23 is discarded
(20_memory.md R31, R32). -/
def putWord (c : Fwu) (i : Nat) (x : Word) : Fwu :=
  BitVec.ofNat 768 (c.toNat % 2 ^ (32 * i) + x.toNat * 2 ^ (32 * i))

/-- `for i from 0 to 23: c.w[i] <- f i`. -/
def ofWords (f : Nat → Word) : Fwu := forUp (fun i c => putWord c i (f i)) 0 24

/-- `val(a)`: the unsigned integer of the 24 words (00_scope.md R7; 20_memory.md R33). -/
def val (a : Fwu) : Nat := a.toNat

/-- `fwu(x)`: the value with `val = x mod 2^768` (00_scope.md R7). -/
def fwu (x : Nat) : Fwu := BitVec.ofNat 768 x

/-! Digits of the decimal buffer. -/

/-- The digit a position stands for: its code minus 0x30 (42_decimal_formatter.md R121). -/
def digitVal (d : Byte) : Nat := d.toNat - 0x30

/-- The ASCII code of a digit (42_decimal_formatter.md R131). -/
def ascii (x : Nat) : Byte := BitVec.ofNat 8 (0x30 + x)

/-- `d` is one of the ten ASCII digits (42_decimal_formatter.md R131). -/
def isDigit (d : Byte) : Bool := 0x30 ≤ d.toNat && d.toNat ≤ 0x39

/-- `D[p]`; a position outside 0 to 231 is never read (20_memory.md R31). -/
def digitAt (D : Buffer) (p : Nat) : Byte := D.toList.getD p (ascii 0)

/-! Responses. -/

/-- `VALUE(x)`: len = 0 and every byte of str 0x00 (30_encoding.md R51; 50_host_interface.md R145). -/
def valueResponse (x : Fwu) : Response where
  kind := .value
  val  := x
  len  := 0
  str  := Vector.replicate 232 0

/-- `STRING(l, s)`: val = ZERO (30_encoding.md R51; 50_host_interface.md R145). -/
def stringResponse (l : Nat) (s : Vector Byte 232) : Response where
  kind := .string
  val  := 0
  len  := BitVec.ofNat 8 l
  str  := s

end Sys2Proof.Machine
end

