-- ==== Sys2Proof/Machine/Flags.lean ====
section
/-! DEFINITION. FIBCORE has no flags (10_state.md R16). What stands here are the carries and borrows that
travel between positions inside one operation: of ADD, of SUB and of a decimal digit. Each sum is
computed on integers, exactly, and narrowed at the end. -/

namespace Sys2Proof.Machine

/-- `t <- a.w[i] + b.w[i] + cy`, the 33-bit sum (40_bigint_arithmetic.md R70). -/
def carrySum (x y : Word) (cy : Bit) : Nat := x.toNat + y.toNat + cy.toNat

/-- `t mod 2^32` (40_bigint_arithmetic.md R70). -/
def sumWord (t : Nat) : Word := BitVec.ofNat 32 t

/-- `t div 2^32`, 0 or 1 (40_bigint_arithmetic.md R70). -/
def sumCarry (t : Nat) : Bit := BitVec.ofNat 1 (t / 2 ^ 32)

/-- `t <- a.w[i] - b.w[i] - bw`, an integer (40_bigint_arithmetic.md R73). -/
def borrowDiff (x y : Word) (bw : Bit) : Int := (x.toNat : Int) - y.toNat - bw.toNat

/-- `t + 2^32` where `t < 0`, else `t` (40_bigint_arithmetic.md R73). -/
def diffWord (t : Int) : Word := BitVec.ofNat 32 (if t < 0 then t + 2 ^ 32 else t).toNat

/-- 1 where `t < 0`, else 0 (40_bigint_arithmetic.md R73). -/
def diffBorrow (t : Int) : Bit := if t < 0 then 1 else 0

/-- A digit sum `x <= 19`, less 10 where it is 10 or more (42_decimal_formatter.md R124, R125). -/
def digitWrap (x : Nat) : Byte := ascii (if 10 ≤ x then x - 10 else x)

/-- The decimal carry of a digit sum (42_decimal_formatter.md R124, R125). -/
def digitCarry (x : Nat) : Bit := if 10 ≤ x then 1 else 0

end Sys2Proof.Machine
end

