-- ==== Sys2Proof/Machine/Decimal.lean ====
section
/-! DEFINITION. DecimalFormatter (42_decimal_formatter.md): DEC as a function of its operand, by doubling
a decimal digit buffer and adding the next bit. -/

namespace Sys2Proof.Machine

/-- `double(D)` on the positions from the least significant up, with the carry into the first of them:
the new positions and the carry out of the last (42_decimal_formatter.md R124). -/
def doubleDigits : Bit → List Byte → List Byte × Bit
  | dc, []      => ([], dc)
  | dc, d :: ds =>
    let x := 2 * digitVal d + dc.toNat
    let r := doubleDigits (digitCarry x) ds
    (digitWrap x :: r.1, r.2)

/-- `add_bit(D, bit)` on the positions from the least significant up: it stops where there is no carry
(42_decimal_formatter.md R125). -/
def addDigits : Bit → List Byte → List Byte × Bit
  | dc, []      => ([], dc)
  | dc, d :: ds =>
    if dc = 1 then
      let x := digitVal d + dc.toNat
      let r := addDigits (digitCarry x) ds
      (digitWrap x :: r.1, r.2)
    else (d :: ds, dc)

/-- Doubling keeps the number of positions. -/
theorem doubleDigits_length (dc : Bit) (ds : List Byte) : (doubleDigits dc ds).1.length = ds.length := by
  induction ds generalizing dc with
  | nil => rfl
  | cons d ds ih => simp [doubleDigits, ih]

/-- Adding a bit keeps the number of positions. -/
theorem addDigits_length (dc : Bit) (ds : List Byte) : (addDigits dc ds).1.length = ds.length := by
  induction ds generalizing dc with
  | nil => rfl
  | cons d ds ih =>
    unfold addDigits
    split
    · simp [ih]
    · rfl

/-- The buffer after `double(D)`; the carry out of D[231] is discarded (42_decimal_formatter.md R124). -/
def double (D : Buffer) : Buffer :=
  ⟨⟨(doubleDigits 0 D.toList).1⟩, by simp [doubleDigits_length]⟩

/-- The carry out of D[231] in `double(D)` (42_decimal_formatter.md R124, R127). -/
def doubleCarry (D : Buffer) : Bit := (doubleDigits 0 D.toList).2

/-- The buffer after `add_bit(D, bit)` (42_decimal_formatter.md R125). -/
def addBit (D : Buffer) (bit : Bit) : Buffer :=
  ⟨⟨(addDigits bit D.toList).1⟩, by simp [addDigits_length]⟩

/-- The decimal carry at the end of `add_bit(D, bit)` (42_decimal_formatter.md R125). -/
def addBitCarry (D : Buffer) (bit : Bit) : Bit := (addDigits bit D.toList).2

/-- How many of the words below position `n` are left when the zero words at the top are dropped: the
index of the highest nonzero word plus one, 0 where every word is zero. -/
def usedWords (v : Fwu) : Nat → Nat
  | 0     => 0
  | n + 1 => if wordAt v n = 0 then usedWords v n else n + 1

/-- The number of bits of `scan(v)`: all 32 bits of every word from the highest nonzero one down, none
for zero (42_decimal_formatter.md R123). -/
def scanBits (v : Fwu) : Nat := 32 * usedWords v 24

/-- The bit of `v` at the cursor `(wi, bi) = (m / 32, m % 32)`, of weight `2^m`
(42_decimal_formatter.md R123). -/
def scannedBit (v : Fwu) (m : Nat) : Bit := (wordAt v (m / 32)).extractLsb' (m % 32) 1

/-- Before the scan: every position '0' (42_decimal_formatter.md R121, R122). -/
def decStart : DecWork := { D := Vector.replicate 232 (ascii 0), dc := 0 }

/-- DEC at the scanned bit `m`: double, then add the bit (42_decimal_formatter.md R122). -/
def decBit (v : Fwu) (m : Nat) (w : DecWork) : DecWork :=
  { D := addBit (double w.D) (scannedBit v m), dc := addBitCarry (double w.D) (scannedBit v m) }

/-- DEC after the scan of the bits `m - 1` down to 0 (42_decimal_formatter.md R122, R123). -/
def decLoop (v : Fwu) (m : Nat) : DecWork := forDown (decBit v) m decStart

/-- `len` of `strip(D)`: `while len > 1 and D[len - 1] = '0': len <- len - 1`
(42_decimal_formatter.md R126). -/
def stripLen (D : Buffer) : Nat → Nat
  | 0     => 0
  | 1     => 1
  | n + 2 => if digitAt D (n + 1) = ascii 0 then stripLen D (n + 1) else n + 2

/-- `str` of `strip(D)`: the most significant digit first, 0x00 at and above `len`
(42_decimal_formatter.md R126). -/
def stripStr (D : Buffer) (len : Nat) : Vector Byte 232 :=
  ⟨⟨(List.range 232).map fun q => if q < len then digitAt D (len - 1 - q) else 0⟩, by simp⟩

/-- `STRING` of `(len, str) <- strip(D)` (42_decimal_formatter.md R126, R130). -/
def stripped (D : Buffer) : Response := stringResponse (stripLen D 232) (stripStr D (stripLen D 232))

/-- `STRING(to_decimal(v))` (42_decimal_formatter.md R122, R130). -/
def toDecimal (v : Fwu) : Response := stripped (decLoop v (scanBits v)).D

end Sys2Proof.Machine
end

