-- ==== Sys2Proof/Machine/BigInt.lean ====
section
/-! DEFINITION. FixedWidthUint construction and BigIntArithmetic (40_bigint_arithmetic.md): the units
SEED, ADD, SUB, SHLW and MUL as functions of their operands. The body of each loop has a name of its
own, because a BUSY cycle advances LOCAL by the same body (Machine/Working.lean). -/

namespace Sys2Proof.Machine

/-! SEED -/

/-- `from_small_integer(k)`: `k[31:0]` in word 0, `k[63:32]` in word 1, and 0 in words 2 to 23, which
`putWord` leaves 0 (40_bigint_arithmetic.md R66). -/
def fromSmallInteger (k : Scalar) : Fwu :=
  putWord (putWord 0 0 (k.extractLsb' 0 32)) 1 (k.extractLsb' 32 32)

/-! ADD -/

/-- Before the first word: `cy <- 0` (40_bigint_arithmetic.md R70). -/
def addStart : AddWork := { cy := 0, c := 0 }

/-- ADD at word position `i` (40_bigint_arithmetic.md R70). -/
def addWord (a b : Fwu) (i : Nat) (w : AddWork) : AddWork :=
  let t := carrySum (wordAt a i) (wordAt b i) w.cy
  { cy := sumCarry t, c := putWord w.c i (sumWord t) }

/-- ADD after its first `n` word positions (40_bigint_arithmetic.md R70). -/
def addLoop (a b : Fwu) (n : Nat) : AddWork := forUp (addWord a b) addStart n

/-- `add(a, b)`; the carry out of word 23 is discarded (40_bigint_arithmetic.md R70). -/
def add (a b : Fwu) : Fwu := (addLoop a b 24).c

/-- The carry out of word 23, which no operation records (40_bigint_arithmetic.md R70, R71). -/
def addCarry (a b : Fwu) : Bit := (addLoop a b 24).cy

/-! SUB -/

/-- Before the first word: `bw <- 0` (40_bigint_arithmetic.md R73). -/
def subStart : SubWork := { bw := 0, c := 0 }

/-- SUB at word position `i` (40_bigint_arithmetic.md R73). -/
def subWord (a b : Fwu) (i : Nat) (w : SubWork) : SubWork :=
  let t := borrowDiff (wordAt a i) (wordAt b i) w.bw
  { bw := diffBorrow t, c := putWord w.c i (diffWord t) }

/-- SUB after its first `n` word positions (40_bigint_arithmetic.md R73). -/
def subLoop (a b : Fwu) (n : Nat) : SubWork := forUp (subWord a b) subStart n

/-- `sub(a, b)`, whatever the operands; the borrow out of word 23 is discarded
(40_bigint_arithmetic.md R73, R75). -/
def sub (a b : Fwu) : Fwu := (subLoop a b 24).c

/-- `sub_borrow(a, b)`, the discarded final borrow: neither a port nor state
(40_bigint_arithmetic.md R74; 60_exceptions.md R173). -/
def subBorrow (a b : Fwu) : Bit := (subLoop a b 24).bw

/-! SHLW -/

/-- `shift_words(a, s)`: words shifted past the top are discarded, the low `s` words become 0, and a
count of 24 or more gives 0 (40_bigint_arithmetic.md R78). -/
def shiftWords (a : Fwu) (s : Nat) : Fwu :=
  ofWords fun i => if s ≤ i then wordAt a (i - s) else 0

/-! MUL -/

/-- `p <- a.w[i] * b.w[j]`, 64 bits (40_bigint_arithmetic.md R82). -/
def wordProduct (a b : Fwu) (i j : Nat) : BitVec 64 :=
  BitVec.ofNat 64 ((wordAt a i).toNat * (wordAt b j).toNat)

/-- `pp <- shift_words(from_small_integer(p), i + j)` (40_bigint_arithmetic.md R82). -/
def partialProduct (a b : Fwu) (i j : Nat) : Fwu :=
  shiftWords (fromSmallInteger (wordProduct a b i j)) (i + j)

/-- MUL at the pair `(i, j)`: `acc <- add(acc, pp)` (40_bigint_arithmetic.md R82). -/
def mulPair (a b : Fwu) (i j : Nat) (acc : Fwu) : Fwu := add acc (partialProduct a b i j)

/-- The first `m` pairs of row `i`: `for j from 0 to m - 1` (40_bigint_arithmetic.md R82). -/
def mulRow (a b : Fwu) (i m : Nat) (acc : Fwu) : Fwu := forUp (mulPair a b i) acc m

/-- MUL before the pair `(i, j)`: the rows below `i` whole, each with `j` from 0 to `23 - i`, and the
first `j` pairs of row `i` (40_bigint_arithmetic.md R82). -/
def mulLoop (a b : Fwu) (i j : Nat) : Fwu :=
  mulRow a b i j (forUp (fun r acc => mulRow a b r (24 - r) acc) 0 i)

/-- `mul(a, b)`: exactly the pairs with `i + j < 24`, from `acc = ZERO`
(40_bigint_arithmetic.md R82). -/
def mul (a b : Fwu) : Fwu := mulLoop a b 24 0

/-- The pair after `(i, j)`: `i` outer ascending, `j` inner ascending from 0 to `23 - i`
(40_bigint_arithmetic.md R82). -/
def nextPair (i j : Nat) : Nat × Nat := if j < 23 - i then (i, j + 1) else (i + 1, 0)

end Sys2Proof.Machine
end

