-- ==== Sys2Proof/Machine/FastDoubling.lean ====
section
/-! DEFINITION. FastDoublingFib (41_fast_doubling_fib.md): FIB as a function of its index, built from the
units of 40_bigint_arithmetic.md. -/

namespace Sys2Proof.Machine

/-- `msb(n)` for `n >= 1`: the index of the most significant set bit (41_fast_doubling_fib.md R102). -/
def msb (n : Scalar) : Nat := n.toNat.log2

/-- The intermediates of one iteration, `e` being formed only where the bit is 1 and otherwise left as
it was (41_fast_doubling_fib.md R104). -/
def fibTemps (w : FibPair) (bit : Bool) (e : Fwu) : FibTemps :=
  let t  := add w.b w.b
  let u  := sub t w.a
  let c  := mul w.a u
  let aa := mul w.a w.a
  let bb := mul w.b w.b
  let d  := add aa bb
  { t := t, u := u, c := c, aa := aa, bb := bb, d := d, e := if bit then add c d else e }

/-- The next pair: `(d, e)` where the bit is 1, else `(c, d)` (41_fast_doubling_fib.md R103, R104). -/
def fibNext (x : FibTemps) (bit : Bool) : FibPair :=
  if bit then { a := x.d, b := x.e } else { a := x.c, b := x.d }

/-- The iteration at bit `i` of `n` (41_fast_doubling_fib.md R103, R104). -/
def fibIter (n : Scalar) (i : Nat) (w : FibPair) : FibPair :=
  fibNext (fibTemps w (n.getLsbD i) 0) (n.getLsbD i)

/-- The pair before the loop: (F(1), F(2)) = (1, 1) (41_fast_doubling_fib.md R101). -/
def fibStart : FibPair := { a := fromSmallInteger 1, b := fromSmallInteger 1 }

/-- The result: the base cases `F(0)` and `F(1)` directly, else the `a` the loop leaves
(41_fast_doubling_fib.md R101). -/
def fibResult (n : Scalar) (w : FibPair) : Fwu :=
  if n = 0 then fromSmallInteger 0 else if n = 1 then fromSmallInteger 1 else w.a

/-- `fib(n)`: `for i from msb(n) - 1 downto 0`, for every 64-bit `n`, with no range check
(41_fast_doubling_fib.md R101, R107). -/
def fib (n : Scalar) : Fwu := fibResult n (forDown (fibIter n) (msb n) fibStart)

/-- Whether any SUB of the iterations at bits `m - 1` down to 0, from the pair `w`, has a minuend smaller
than its subtrahend (60_exceptions.md R173). -/
def fibLoopBorrows (n : Scalar) : Nat → FibPair → Bool
  | 0,     _ => false
  | m + 1, w => subBorrow (add w.b w.b) w.a == 1 || fibLoopBorrows n m (fibIter n m w)

/-- Whether any SUB inside `fib(n)` borrows (60_exceptions.md R173; 41_fast_doubling_fib.md R106). -/
def fibBorrows (n : Scalar) : Bool := fibLoopBorrows n (msb n) fibStart

end Sys2Proof.Machine
end

