-- ==== Sys2Proof/Machine/Working.lean ====
section
/-! DEFINITION. How LOCAL starts and advances (10_state.md R12, R17 to R20), by the loop bodies of the
operations themselves, and the response of each operation (50_host_interface.md R145). -/

namespace Sys2Proof.Machine

/-- The response of each operation: the table of 50_host_interface.md R145. -/
def responseOf (i : Instr) : Response :=
  match i with
  | .add a b  => valueResponse (add a b)
  | .sub a b  => valueResponse (sub a b)
  | .shlw a k => valueResponse (shiftWords a k.toNat)
  | .mul a b  => valueResponse (mul a b)
  | .fib k    => valueResponse (fib k)
  | .dec a    => toDecimal a
  | .seed k   => valueResponse (fromSmallInteger k)

/-- LOCAL as it is initialised at the acceptance of an operation (10_state.md R17 to R20;
50_host_interface.md R143). Temporaries with no initial value are free, drawn at the index `f`. -/
def localStart (i : Instr) (f : Nat) : Local :=
  match i with
  | .add _ _  => .add 0 addStart
  | .sub _ _  => .sub 0 subStart
  | .shlw _ _ => .none
  | .mul _ _  => .mul 0 0 0 (Config.freeMulTemps f)
  | .fib n    => .fib n (msb n) fibStart (Config.freeFibTemps f)
  | .dec v    => .dec (scanBits v) decStart
  | .seed _   => .none

/-- One loop iteration of the operation in progress, on the operands of CMD; nothing once the loop is
over (10_state.md R12, R14). -/
def localStep (c : Command) (l : Local) : Local :=
  match l with
  | .none              => .none
  | .add i w           => if i < 24 then .add (i + 1) (addWord c.a c.b i w) else .add i w
  | .sub i w           => if i < 24 then .sub (i + 1) (subWord c.a c.b i w) else .sub i w
  | .mul i j acc t     =>
    if i < 24 then
      .mul (nextPair i j).1 (nextPair i j).2 (mulPair c.a c.b i j acc)
        { p := wordProduct c.a c.b i j, pp := partialProduct c.a c.b i j }
    else .mul i j acc t
  | .fib n 0 w t       => .fib n 0 w t
  | .fib n (m + 1) w t =>
    .fib n m (fibNext (fibTemps w (n.getLsbD m) t.e) (n.getLsbD m)) (fibTemps w (n.getLsbD m) t.e)
  | .dec 0 w           => .dec 0 w
  | .dec (m + 1) w     => .dec m (decBit c.a m w)

/-- How many loop iterations an operation takes (40_bigint_arithmetic.md R70, R73, R84;
41_fast_doubling_fib.md R108; 42_decimal_formatter.md R123). -/
def loopLength (i : Instr) : Nat :=
  match i with
  | .add _ _  => 24
  | .sub _ _  => 24
  | .shlw _ _ => 0
  | .mul _ _  => 300
  | .fib n    => msb n
  | .dec v    => scanBits v
  | .seed _   => 0

/-- The response that LOCAL holds for an operation once its loop is over; none where LOCAL is that of
another operation. -/
def localResponse (i : Instr) (l : Local) : Option Response :=
  match i, l with
  | .add _ _,  .add _ w     => some (valueResponse w.c)
  | .sub _ _,  .sub _ w     => some (valueResponse w.c)
  | .shlw a k, .none        => some (valueResponse (shiftWords a k.toNat))
  | .mul _ _,  .mul _ _ x _ => some (valueResponse x)
  | .fib n,    .fib _ _ w _ => some (valueResponse (fibResult n w))
  | .dec _,    .dec _ w     => some (stripped w.D)
  | .seed k,   .none        => some (valueResponse (fromSmallInteger k))
  | _,         _            => none

end Sys2Proof.Machine
end

