-- ==== Sys2Proof/Machine/Ops.lean ====
section
/-! DEFINITION. The ports and the edge operations: what the outputs show, when a command is accepted and a
response taken, and what each transition of the phase writes (50_host_interface.md R140 to R147;
70_reset_and_hazards.md R180, R186). FIBCORE has no memory (20_memory.md R30), no register file
(10_state.md R11) and no exception to take or return from (60_exceptions.md R160, R164, R165). -/

namespace Sys2Proof.Machine

/-! Inputs. -/

/-- The command on the command channel (50_host_interface.md R140). -/
def Pins.command (p : Pins) : Command := { op := p.cmdOp, a := p.cmdA, b := p.cmdB, k := p.cmdK }

/-- The command offered in a cycle (50_host_interface.md R141). -/
def Pins.offered (p : Pins) : Option Command := if p.cmdValid then some p.command else none

/-- The inputs of a host that does nothing more than keep an offer standing, as
70_reset_and_hazards.md R186 obliges it to (log entry 6). -/
def standing (offer : Option Command) : Pins :=
  match offer with
  | none   => { rst := false, cmdValid := false, cmdOp := 0, cmdA := 0, cmdB := 0, cmdK := 0, rspReady := false }
  | some c => { rst := false, cmdValid := true, cmdOp := c.op, cmdA := c.a, cmdB := c.b, cmdK := c.k,
                rspReady := false }

/-- The inputs of this cycle: the next of `inputs`, and after the last of them a host that only keeps its
offer standing (log entry 6). -/
def State.pins (s : State) : Pins :=
  match s.inputs with
  | []     => standing s.offer
  | p :: _ => p

/-! Outputs. -/

/-- The output ports (50_host_interface.md R140). -/
structure Outputs where
  cmdReady : Bool
  rspValid : Bool
  rsp      : Response
  deriving DecidableEq, Repr

/-- What the outputs show in this cycle: `cmd_ready = (phase = IDLE)`, `rsp_valid = (phase = DONE)`, and RSP
while `rsp_valid = 1`, else an unspecified value (50_host_interface.md R140, R147). -/
def State.outputs (s : State) : Outputs where
  cmdReady := s.phase == .idle
  rspValid := s.phase == .done
  rsp      := if s.phase = .done then s.rsp else Config.freeOutput s.free

/-- A command is accepted in this cycle (50_host_interface.md R141). -/
def State.accepting (s : State) : Bool := s.pins.cmdValid && s.outputs.cmdReady && !s.pins.rst

/-- A response is taken in this cycle (50_host_interface.md R142). -/
def State.taking (s : State) : Bool := s.outputs.rspValid && s.pins.rspReady && !s.pins.rst

/-! Stability of an offer (70_reset_and_hazards.md R186). -/

/-- Two commands are the same offer: equal but for fields the operation's format ignores
(70_reset_and_hazards.md R186). The reserved code has no format, so none of its fields is ignored. -/
def sameOffer (c d : Command) : Bool :=
  match decodeCommand c, decodeCommand d with
  | .ok i, .ok j => i == j
  | _,     _     => c == d

/-- The inputs of a cycle keep an offer made before it (70_reset_and_hazards.md R186). -/
def Pins.keeps (p : Pins) (offer : Option Command) : Bool :=
  match offer with
  | none   => true
  | some c => p.cmdValid && sameOffer c p.command

/-- In this cycle the host withdraws or changes a command it has offered and that has not been accepted
(70_reset_and_hazards.md R186). -/
def State.offerBroken (s : State) : Bool := !s.pins.keeps s.offer

/-! What an edge writes. -/

/-- The part of an edge that is the same in every phase: the inputs of this cycle are past, an offer that
was not accepted stands, and the next edge draws free values of its own. -/
def State.tick (s : State) : State :=
  { s with
    inputs := s.inputs.tail
    offer  := if s.accepting then none else s.pins.offered
    free   := s.free + 1 }

/-- Reset: `phase <- IDLE`, and CMD, RSP and LOCAL become unspecified (70_reset_and_hazards.md R180). From
here on the rules apply (R182). -/
def State.resetEdge (s : State) : State :=
  { s with
    phase := .idle
    cmd   := Config.freeCommand s.free
    rsp   := Config.freeResponse s.free
    loc   := Config.freeLocal s.free
    wait  := 0
    wasReset := true }

/-- IDLE to BUSY: CMD is captured whole and LOCAL initialised for the operation
(50_host_interface.md R143, R146). -/
def State.capture (s : State) (c : Command) (i : Instr) : State :=
  { s with
    phase := .busy
    cmd   := c
    loc   := localStart i s.free
    wait  := Config.latency c }

/-- BUSY to BUSY: LOCAL advances by some loop iterations, CMD does not change
(50_host_interface.md R143; log entry 9). -/
def State.advance (s : State) : State :=
  { s with
    loc  := (localStep s.cmd)^[Config.freeWork s.free] s.loc
    wait := s.wait - 1 }

/-- BUSY to DONE: RSP is written, and CMD and LOCAL are unspecified from now on
(50_host_interface.md R143; 10_state.md R14, R15, R17). -/
def State.respond (s : State) (r : Response) : State :=
  { s with
    phase := .done
    rsp   := r
    cmd   := Config.freeCommand s.free
    loc   := Config.freeLocal s.free }

/-- DONE to IDLE: the host receives RSP, which is unspecified from now on
(50_host_interface.md R143; 10_state.md R15). -/
def State.release (s : State) : State :=
  { s with
    phase := .idle
    rsp   := Config.freeResponse s.free }

/-- The edge of a cycle in which a command is accepted: the reserved code is refused
(50_host_interface.md R143; 30_encoding.md R52). -/
def State.accept (s : State) : Host.Outcome State Fault Refusal :=
  match decodeCommand s.pins.command with
  | .ok i    => .next (s.tick.capture s.pins.command i)
  | .error _ => .refused .reservedOpcode

end Sys2Proof.Machine
end

