-- ==== Sys2Proof/Machine/ExecBigInt.lean ====
section
/-! DEFINITION. The meanings of ADD, SUB, SHLW, MUL and SEED: the completing BUSY edge of each, on the
operands decoded from CMD (40_bigint_arithmetic.md; 50_host_interface.md R143, R145). -/

namespace Sys2Proof.Machine

/-- ADD (40_bigint_arithmetic.md R70). -/
def execAdd (a b : Fwu) (s : State) : Host.Outcome State Fault Refusal :=
  .next (s.respond (valueResponse (add a b)))

/-- SUB, whatever the operands (40_bigint_arithmetic.md R73, R75). -/
def execSub (a b : Fwu) (s : State) : Host.Outcome State Fault Refusal :=
  .next (s.respond (valueResponse (sub a b)))

/-- SHLW, the count being all 64 bits of `k` (40_bigint_arithmetic.md R78; 30_encoding.md R47). -/
def execShlw (a : Fwu) (k : Scalar) (s : State) : Host.Outcome State Fault Refusal :=
  .next (s.respond (valueResponse (shiftWords a k.toNat)))

/-- MUL (40_bigint_arithmetic.md R82). -/
def execMul (a b : Fwu) (s : State) : Host.Outcome State Fault Refusal :=
  .next (s.respond (valueResponse (mul a b)))

/-- SEED (40_bigint_arithmetic.md R66). -/
def execSeed (k : Scalar) (s : State) : Host.Outcome State Fault Refusal :=
  .next (s.respond (valueResponse (fromSmallInteger k)))

end Sys2Proof.Machine
end

