-- ==== Sys2Proof/Machine/ExecDec.lean ====
section
/-! DEFINITION. The meaning of DEC: its completing BUSY edge (42_decimal_formatter.md R130). -/

namespace Sys2Proof.Machine

/-- DEC, for any value (42_decimal_formatter.md R130). -/
def execDec (a : Fwu) (s : State) : Host.Outcome State Fault Refusal :=
  .next (s.respond (toDecimal a))

end Sys2Proof.Machine
end

