-- ==== Sys2Proof/Machine/ExecFib.lean ====
section
/-! DEFINITION. The meaning of FIB: its completing BUSY edge (41_fast_doubling_fib.md R109). -/

namespace Sys2Proof.Machine

/-- FIB, the index being all 64 bits of `k`, with no range check (41_fast_doubling_fib.md R107, R109). -/
def execFib (k : Scalar) (s : State) : Host.Outcome State Fault Refusal :=
  .next (s.respond (valueResponse (fib k)))

end Sys2Proof.Machine
end

