-- ==== Sys2Proof/Machine/Dispatch.lean ====
section
/-! DEFINITION. One arm per operation: the completing BUSY edge `RSP <- exec(CMD)` of
50_host_interface.md R143 and R145, on the operation decoded from CMD. -/

namespace Sys2Proof.Machine

def exec (i : Instr) (s : State) : Host.Outcome State Fault Refusal :=
  match i with
  | .add a b => Sys2Proof.Machine.execAdd a b s
  | .sub a b => Sys2Proof.Machine.execSub a b s
  | .shlw a k => Sys2Proof.Machine.execShlw a k s
  | .mul a b => Sys2Proof.Machine.execMul a b s
  | .fib k => Sys2Proof.Machine.execFib k s
  | .dec a => Sys2Proof.Machine.execDec a s
  | .seed k => Sys2Proof.Machine.execSeed k s

end Sys2Proof.Machine
end

