-- ==== Sys2Proof/Machine/Edge.lean ====
section
/-! DEFINITION. One rising edge of `clk`: the transition table of 50_host_interface.md R143, reset first
(60_exceptions.md R163), and a command placed in BUSY for the next edge to complete. -/

namespace Sys2Proof.Machine

/-- IDLE: a command is accepted, or nothing happens (50_host_interface.md R141, R143). -/
def State.idleEdge (s : State) : Host.Outcome State Fault Refusal :=
  if s.accepting then s.accept else .next s.tick

/-- BUSY: once the latency is over the operation in CMD completes, by `exec`; before that LOCAL may change
(50_host_interface.md R143, R145). CMD never holds the reserved code in a BUSY state that a run reaches;
it is refused here too. -/
def State.busyEdge (s : State) : Host.Outcome State Fault Refusal :=
  if s.wait = 0 then
    match decodeCommand s.cmd with
    | .ok i    => exec i s.tick
    | .error _ => .refused .reservedOpcode
  else .next s.tick.advance

/-- DONE: the response is taken, or waits (50_host_interface.md R142, R143). -/
def State.doneEdge (s : State) : Host.Outcome State Fault Refusal :=
  if s.taking then .next s.tick.release else .next s.tick

/-- One rising edge of `clk`: reset wins (60_exceptions.md R163; 70_reset_and_hazards.md R180), before the
first reset no rule applies (R182), a broken offer has no meaning (R186), and else the phase decides
(50_host_interface.md R143). -/
def State.edge (s : State) : Host.Outcome State Fault Refusal :=
  if s.pins.rst then .next s.tick.resetEdge
  else if !s.wasReset then .refused .neverReset
  else if s.offerBroken then .refused .unstableCommand
  else
    match s.phase with
    | .idle => s.idleEdge
    | .busy => s.busyEdge
    | .done => s.doneEdge

/-- `s` with the command `c` in BUSY and its latency over, so that the next edge completes it: CMD is `c`,
LOCAL is initialised, power-up is past, this cycle has no reset and no earlier offer to break
(log entry 13). -/
def State.place (s : State) (c : Command) : State :=
  { s with
    phase  := .busy
    cmd    := c
    loc    := match decodeCommand c with
              | .ok i    => localStart i s.free
              | .error _ => .none
    wait   := 0
    wasReset := true
    inputs := match s.inputs with
              | []      => []
              | p :: ps => { p with rst := false } :: ps
    offer  := none }

/-- `s` with the command whose packed vector is `w` placed; a number that is no packed vector changes
nothing (30_encoding.md R46). -/
def State.placeWord (s : State) (w : Nat) : State :=
  if w < 2 ^ 1603 then s.place (unpackCommand (BitVec.ofNat 1603 w)) else s

end Sys2Proof.Machine
end

