-- ==== Sys2Proof/Machine/Step.lean ====
section
/-! DEFINITION. The step, one rising edge of `clk` (50_host_interface.md R140), and where an instruction is
stored for it. -/

namespace Sys2Proof.Machine

/-- One rising edge of `clk` (50_host_interface.md R140, R143). -/
def step (s : State) : Host.Outcome State Fault Refusal := s.edge

/-- `s` with the command whose packed vector is `w`, the bits above `nbits` zero, placed where the next
step completes it (log entry 13). -/
def State.withFetchWord (s : State) (nbits w : Nat) : State := s.placeWord (w % 2 ^ nbits)

end Sys2Proof.Machine
end

