-- ==== Sys2Proof/Safety.lean ====
section
/-! DEFINITION. The terms in which claims about runs are stated: the events at the ports and how they match
(50_host_interface.md R142, R144), the invariant of a state, what a host owes the engine
(70_reset_and_hazards.md R186, R188), and the end of a run (50_host_interface.md R156). -/

namespace Sys2Proof.Machine

/-! Events. -/

/-- What happens at the ports in one cycle. -/
inductive Event where
  | reset
  | accepted (i : Instr)
  | taken (r : Response)
  | quiet
  deriving DecidableEq, Repr

/-- The event of a cycle (50_host_interface.md R141, R142; 60_exceptions.md R163). -/
def State.event (s : State) : Event :=
  if s.pins.rst then .reset
  else if s.accepting then
    match decodeCommand s.pins.command with
    | .ok i    => .accepted i
    | .error _ => .quiet
  else if s.taking then .taken s.outputs.rsp
  else .quiet

/-- The events of the next `k` cycles, ending where a step has no meaning. -/
def trace : Nat → State → List Event
  | 0,     _ => []
  | k + 1, s =>
    match step s with
    | .next t    => s.event :: trace k t
    | .fault _   => []
    | .refused _ => []

/-- The events of a run match: at most one command is inside the block, each accepted command is followed by
the taking of its own response unless a reset comes first, and no response is taken without a command
(50_host_interface.md R142, R144; 70_reset_and_hazards.md R181). `inside` is the command inside the
block. -/
def matched (inside : Option Instr) : List Event → Prop
  | []                => True
  | .reset :: es      => matched none es
  | .quiet :: es      => matched inside es
  | .accepted i :: es => inside = none ∧ matched (some i) es
  | .taken r :: es    => (∃ i, inside = some i ∧ r = responseOf i) ∧ matched none es

/-- `inside` is the command inside the block: none in IDLE, the one in CMD while BUSY, the one whose response RSP
holds in DONE (50_host_interface.md R142, R144). -/
def State.holds (s : State) (inside : Option Instr) : Prop :=
  match s.phase with
  | .idle => inside = none
  | .busy => ∃ i, inside = some i ∧ decodeCommand s.cmd = .ok i
  | .done => ∃ i, inside = some i ∧ s.rsp = responseOf i

/-! Invariant. -/

/-- A response has the form of 30_encoding.md R51, its text no leading zero (42_decimal_formatter.md R126). -/
def Response.wf (r : Response) : Bool :=
  match r.kind with
  | .value  => r.len == 0 && r.str.toList.all (· == 0)
  | .string =>
    r.val == 0 && 1 ≤ r.len.toNat && r.len.toNat ≤ 232 &&
      (r.str.toList.take r.len.toNat).all isDigit && (r.str.toList.drop r.len.toNat).all (· == 0) &&
      (r.len == 1 || r.str.toList.head? != some (ascii 0))

/-- LOCAL stands somewhere on the way the operation in CMD takes from its initial working state
(10_state.md R12, R17). -/
def onTrack (c : Command) (l : Local) : Prop :=
  ∃ i f m, decodeCommand c = .ok i ∧ l = (localStep c)^[m] (localStart i f)

/-- What holds of every state that a run reaches: in BUSY, CMD is a legal command and LOCAL is on its
way; in DONE, RSP has the form of a response. -/
def State.Inv (s : State) : Prop :=
  (s.phase = .busy → onTrack s.cmd s.loc) ∧ (s.phase = .done → Response.wf s.rsp = true)

/-- How far the loop of the operation in CMD has come, in values: the sum and the carry, the difference and the
borrow, the accumulated product, the Fibonacci pair and the decimal number of the part already processed
(40_bigint_arithmetic.md R71, R74, R83; 41_fast_doubling_fib.md R105; 42_decimal_formatter.md R127). -/
def loopValues (i : Instr) (l : Local) : Prop :=
  match i, l with
  | .add a b, .add n w => n ≤ 24 ∧ val w.c < 2 ^ (32 * n) ∧
      val w.c + w.cy.toNat * 2 ^ (32 * n) = val a % 2 ^ (32 * n) + val b % 2 ^ (32 * n)
  | .sub a b, .sub n w => n ≤ 24 ∧ val w.c < 2 ^ (32 * n) ∧
      val a % 2 ^ (32 * n) + w.bw.toNat * 2 ^ (32 * n) = val w.c + val b % 2 ^ (32 * n)
  | .shlw _ _, .none => True
  | .mul a b, .mul r c acc _ => (r < 24 ∧ c < 24 - r ∨ r = 24 ∧ c = 0) ∧
      val acc = (val a % 2 ^ (32 * r) * val b + (wordAt a r).toNat * 2 ^ (32 * r) * (val b % 2 ^ (32 * c)))
        % 2 ^ 768
  | .fib n, .fib n' left w _ => n' = n ∧ left ≤ msb n ∧ (n ≠ 0 →
      val w.a = Nat.fib (n.toNat / 2 ^ left) % 2 ^ 768 ∧ val w.b = Nat.fib (n.toNat / 2 ^ left + 1) % 2 ^ 768)
  | .dec v, .dec left w => left ≤ scanBits v ∧ w.D.toList.all isDigit = true ∧
      Nat.ofDigits 10 (w.D.toList.map digitVal) = val v / 2 ^ left
  | .seed _, .none => True
  | _, _ => False

/-- In BUSY, CMD is a legal command and LOCAL holds the values of the part of its loop already processed. -/
def State.LoopInv (s : State) : Prop :=
  s.phase = .busy → ∃ i, decodeCommand s.cmd = .ok i ∧ loopValues i s.loc

/-! The host. -/

/-- Through these cycles, none of which accepts a command, the host drives no reset and keeps every offer
(70_reset_and_hazards.md R186). -/
def hostKeeps : Option Command → List Pins → Bool
  | _,     []      => true
  | offer, p :: ps => !p.rst && p.keeps offer && hostKeeps p.offered ps

/-- What a host owes the engine for a result to mean what the document says: the minuend of SUB is not below
its subtrahend, the index of FIB is at most `N_MAX` (50_host_interface.md R150, R154;
70_reset_and_hazards.md R188). -/
def withinContract (i : Instr) : Prop :=
  match i with
  | .add _ _  => True
  | .sub a b  => val b ≤ val a
  | .shlw _ _ => True
  | .mul _ _  => True
  | .fib k    => k.toNat ≤ Config.nMax
  | .dec _    => True
  | .seed _   => True

/-- A run, which starts with a reset, has ended: `phase = IDLE`, every response taken, and no command offered
or to come (50_host_interface.md R156). -/
def State.runEnded (s : State) : Bool :=
  s.wasReset && s.phase == .idle && s.offer.isNone && s.inputs.all (fun p => !p.cmdValid)

/-! The yardsticks some claims measure the engine by. -/

/-- The standard decimal text of a number, most significant digit first, `"0"` for zero
(42_decimal_formatter.md R129). -/
def decimalText (x : Nat) : List Byte :=
  if x = 0 then [ascii 0] else ((Nat.digits 10 x).map ascii).reverse

/-- The cursors `(wi, bi)` of a scan of the words below `words`, in scan order: from the highest word down, and
in each word from bit 31 down (42_decimal_formatter.md R123). -/
def scanCursors (words : Nat) : List (Nat × Nat) :=
  (List.range words).reverse.flatMap fun wi => (List.range 32).reverse.map fun bi => (wi, bi)

/-- The pairs `(i, j)` with `i + j < 24`, in the order of 40_bigint_arithmetic.md R82. -/
def mulPairs : List (Nat × Nat) :=
  (List.range 24).flatMap fun i => (List.range (24 - i)).map fun j => (i, j)

/-- The partial products of some pairs accumulated from ZERO via `add`, in the order of the list
(40_bigint_arithmetic.md R82, R83). -/
def accumulate (a b : Fwu) (pairs : List (Nat × Nat)) : Fwu :=
  pairs.foldl (fun acc ij => add acc (shiftWords
    (fromSmallInteger (BitVec.ofNat 64 ((wordAt a ij.1).toNat * (wordAt b ij.2).toNat))) (ij.1 + ij.2))) 0

end Sys2Proof.Machine
end

