-- ==== Sys2Proof/Certificates/Slice0/Obligations.lean ====
section
/-! DEFINITION. The statements for the provers, from the numbered rules of the spec. -/

open Sys2Proof Sys2Proof.Machine

/-! Encoding. -/

/-- Every legal operation, with every operand at every value, is decoded from its own packed vector. -/
def Obligations.DecodeUndoesEncode : Prop :=
  ∀ i : Instr, i.wellFormed = true → decode (encode i) = .ok i

/-- 30_encoding.md R46: where each field, and each word of a big operand, stands in `cmd[1602:0]`. -/
def Obligations.PackedCommandFieldPositions : Prop :=
  ∀ c : Command,
    (∀ i, i < 24 → (packCommand c).extractLsb' (32 * i) 32 = wordAt c.a i) ∧
    (∀ i, i < 24 → (packCommand c).extractLsb' (768 + 32 * i) 32 = wordAt c.b i) ∧
    (packCommand c).extractLsb' 1536 64 = c.k ∧
    (packCommand c).extractLsb' 1600 3 = c.op ∧
    unpackCommand (packCommand c) = c

/-- 30_encoding.md R57: where each field, and each character, stands in `rsp[2632:0]`. -/
def Obligations.PackedResponseFieldPositions : Prop :=
  ∀ r : Response,
    (packResponse r).extractLsb' 0 768 = r.val ∧
    (∀ q (hq : q < 232), (packResponse r).extractLsb' (768 + 8 * q) 8 = r.str[q]) ∧
    (packResponse r).extractLsb' 2624 8 = r.len ∧
    (packResponse r).extractLsb' 2632 1 = (match r.kind with | .value => 0 | .string => 1)

/-- 30_encoding.md R48, R52, R53: the reserved code is rejected by name, and every other vector is an
operation with that number. -/
def Obligations.DecoderRejectsOnlyReservedOpcode : Prop :=
  ∀ v : BitVec 1603,
    (v.extractLsb' 1600 3 = 7 → decode v = .error .reservedOpcode) ∧
    (v.extractLsb' 1600 3 ≠ 7 → ∃ i, decode v = .ok i ∧ i.opcode = v.extractLsb' 1600 3 ∧ i.wellFormed = true)

/-- 30_encoding.md R50: a field the format ignores may hold anything: the same operation is decoded, and the
same response formed. -/
def Obligations.IgnoredFieldsChangeNothing : Prop :=
  ∀ (c : Command) (i : Instr) (a b : Fwu) (k : Scalar), decodeCommand c = .ok i →
    let d : Command := match i.format with
      | .vv => { c with k := k }
      | .vk => { c with b := b }
      | .k  => { c with a := a, b := b }
      | .v  => { c with b := b, k := k }
    decodeCommand d = .ok i ∧
      ∀ s : State, s.phase = .busy → s.wait = 0 → step { s with cmd := d } = step { s with cmd := c }

/-- Packed vectors written out from 30_encoding.md R46 and 95_test_vectors.md section 6, one for each
operation. -/
def Obligations.SpecCommandVectorsDecode : Prop :=
  decodeTableWord 1608 (0 * 2 ^ 1600 + 0x22 * 2 ^ 768 + 0x15) = some (.add 0x15 0x22) ∧
  decodeTableWord 1608 (1 * 2 ^ 1600 + 0x5 * 2 ^ 768 + 0x10) = some (.sub 0x10 0x5) ∧
  decodeTableWord 1608 (2 * 2 ^ 1600 + 0x17 * 2 ^ 1536 + 0x7) = some (.shlw 0x7 0x17) ∧
  decodeTableWord 1608 (3 * 2 ^ 1600 + 0xB * 2 ^ 768 + 0x5) = some (.mul 0x5 0xB) ∧
  decodeTableWord 1608 (4 * 2 ^ 1600 + 0xA * 2 ^ 1536) = some (.fib 0xA) ∧
  decodeTableWord 1608 (5 * 2 ^ 1600 + 0x1333DB76A7C594BFC3) = some (.dec 0x1333DB76A7C594BFC3) ∧
  decodeTableWord 1608 (6 * 2 ^ 1600 + 1 * 2 ^ 1536) = some (.seed 1) ∧
  decodeTableWord 1608 (7 * 2 ^ 1600) = none

/-! Values. -/

/-- The notation of 00_scope.md R7 (the last two equivalences it derives): `val` as the sum of the words by
their weights, `fwu` and its words, equality by words and by value, and ZERO. -/
def Obligations.FwuIsItsWords : Prop :=
  (∀ a : Fwu, val a = ∑ i ∈ Finset.range 24, (wordAt a i).toNat * 2 ^ (32 * i)) ∧
  (∀ a : Fwu, val a ≤ 2 ^ 768 - 1) ∧
  (∀ x : Nat, val (fwu x) = x % 2 ^ 768) ∧
  (∀ x i : Nat, i < 24 → (wordAt (fwu x) i).toNat = x / 2 ^ (32 * i) % 2 ^ 32) ∧
  (∀ a b : Fwu, (∀ i, i < 24 → wordAt a i = wordAt b i) ↔ a = b) ∧
  (∀ a b : Fwu, val a = val b ↔ a = b) ∧
  (∀ i, i < 24 → wordAt (fwu 0) i = 0)

/-- 40_bigint_arithmetic.md R66: SEED responds with the 64-bit integer in words 0 and 1. -/
def Obligations.SeedRespondsWithItsInteger : Prop :=
  ∀ (k : Scalar) (a b : Fwu) (s : State), decodeCommand { op := 6, a := a, b := b, k := k } = .ok (.seed k) ∧
    ∃ c : Fwu, exec (.seed k) s = .next (s.respond (valueResponse c)) ∧
    wordAt c 0 = k.extractLsb' 0 32 ∧ wordAt c 1 = k.extractLsb' 32 32 ∧
    (∀ i, 2 ≤ i → i < 24 → wordAt c i = 0) ∧ val c = k.toNat

/-- 40_bigint_arithmetic.md R70: ADD responds with the words of the carry chain, the carry into word 0 being
0 and the carry out of word 23 dropped. -/
def Obligations.AddRespondsWithCarryChain : Prop :=
  ∀ (a b : Fwu) (k : Scalar) (s : State), decodeCommand { op := 0, a := a, b := b, k := k } = .ok (.add a b) ∧
    ∃ (c : Fwu) (cy : Nat → Nat),
    exec (.add a b) s = .next (s.respond (valueResponse c)) ∧ cy 0 = 0 ∧
    ∀ i, i < 24 →
      (wordAt c i).toNat = ((wordAt a i).toNat + (wordAt b i).toNat + cy i) % 2 ^ 32 ∧
      cy (i + 1) = ((wordAt a i).toNat + (wordAt b i).toNat + cy i) / 2 ^ 32

/-- The value law of ADD and what follows from it: 40_bigint_arithmetic.md R71, which the spec derives. -/
def Obligations.AddValueLaw : Prop :=
  (∀ a b, val (add a b) = (val a + val b) % 2 ^ 768) ∧
  (∀ a b, add a b = add b a) ∧
  (∀ a b c, add (add a b) c = add a (add b c)) ∧
  (∀ a, add a (fwu 0) = a ∧ add (fwu 0) a = a) ∧
  (∀ a b, (addCarry a b).toNat = (val a + val b) / 2 ^ 768 ∧ (addCarry a b = 0 ∨ addCarry a b = 1))

/-- 40_bigint_arithmetic.md R73: SUB responds with the words of the borrow chain, the borrow into word 0
being 0 and the borrow out of word 23 dropped, whatever the operands. -/
def Obligations.SubRespondsWithBorrowChain : Prop :=
  ∀ (a b : Fwu) (k : Scalar) (s : State), decodeCommand { op := 1, a := a, b := b, k := k } = .ok (.sub a b) ∧
    ∃ (c : Fwu) (bw : Nat → Nat),
    exec (.sub a b) s = .next (s.respond (valueResponse c)) ∧ bw 0 = 0 ∧
    ∀ i, i < 24 →
      if ((wordAt a i).toNat : Int) - (wordAt b i).toNat - bw i < 0 then
        ((wordAt c i).toNat : Int) = (wordAt a i).toNat - (wordAt b i).toNat - bw i + 2 ^ 32 ∧ bw (i + 1) = 1
      else
        ((wordAt c i).toNat : Int) = (wordAt a i).toNat - (wordAt b i).toNat - bw i ∧ bw (i + 1) = 0

/-- The value law of SUB and the borrow predicate: 40_bigint_arithmetic.md R74, which the spec derives. -/
def Obligations.SubValueLaw : Prop :=
  (∀ a b, (val (sub a b) : Int) = ((val a : Int) - val b) % 2 ^ 768) ∧
  (∀ a b, (subBorrow a b = 1 ↔ val a < val b) ∧ (subBorrow a b = 0 ↔ ¬ val a < val b)) ∧
  (∀ a b, val b ≤ val a → val (sub a b) = val a - val b) ∧
  (∀ a b, add (sub a b) b = a)

/-- 40_bigint_arithmetic.md R78: SHLW responds with the words moved up by the whole 64-bit count. -/
def Obligations.ShiftRespondsWithMovedWords : Prop :=
  ∀ (a b : Fwu) (k : Scalar) (s : State), decodeCommand { op := 2, a := a, b := b, k := k } = .ok (.shlw a k) ∧
    ∃ c : Fwu, exec (.shlw a k) s = .next (s.respond (valueResponse c)) ∧
    (∀ i, i < 24 → wordAt c i = if k.toNat ≤ i then wordAt a (i - k.toNat) else 0) ∧
    (24 ≤ k.toNat → c = fwu 0)

/-- The value law of SHLW, and composition with `s + t` a mathematical sum: 40_bigint_arithmetic.md R79, which
the spec derives. -/
def Obligations.ShiftValueLawAndComposition : Prop :=
  (∀ a s, val (shiftWords a s) = (val a * 2 ^ (32 * s)) % 2 ^ 768) ∧
  (∀ a s t, shiftWords (shiftWords a s) t = shiftWords a (s + t)) ∧
  (∀ a s, 24 ≤ s → shiftWords a s = fwu 0) ∧
  (∀ s, shiftWords (fwu 0) s = fwu 0)

/-- 40_bigint_arithmetic.md R82: MUL responds with the partial products of exactly the pairs with
`i + j < 24` accumulated from ZERO via `add`. -/
def Obligations.MulRespondsWithSchoolbookProduct : Prop :=
  (∀ (a b : Fwu) (k : Scalar) (s : State), decodeCommand { op := 3, a := a, b := b, k := k } = .ok (.mul a b) ∧
    exec (.mul a b) s = .next (s.respond (valueResponse (accumulate a b mulPairs)))) ∧
  (∀ i j, (i, j) ∈ mulPairs ↔ i < 24 ∧ j < 24 ∧ i + j < 24) ∧ mulPairs.Nodup

/-- The value law of MUL, its ring laws, and that neither the order of the pairs nor pairs with `i + j >= 24` can
change the result: 40_bigint_arithmetic.md R83, which the spec derives. -/
def Obligations.MulValueLaw : Prop :=
  (∀ a b, val (mul a b) = (val a * val b) % 2 ^ 768) ∧
  (∀ a b, mul a b = mul b a) ∧
  (∀ a b c, mul (mul a b) c = mul a (mul b c)) ∧
  (∀ a b c, mul a (add b c) = add (mul a b) (mul a c) ∧ mul a (sub b c) = sub (mul a b) (mul a c)) ∧
  (∀ (a b : Fwu) (extra pairs : List (Nat × Nat)), (∀ p ∈ extra, 24 ≤ p.1 + p.2) →
    pairs.Perm (mulPairs ++ extra) → accumulate a b pairs = mul a b)

/-- 40_bigint_arithmetic.md R75, R78 and 42_decimal_formatter.md R128, as 60_exceptions.md R161 lists them:
rows 2, 3 and 5 are values, not faults. -/
def Obligations.BoundaryCasesRespondWithValues : Prop :=
  (∀ (a b : Fwu) (s : State), val a < val b →
    exec (.sub a b) s = .next (s.respond (valueResponse (fwu (val a + 2 ^ 768 - val b))))) ∧
  (∀ (a : Fwu) (k : Scalar) (s : State), 24 ≤ k.toNat →
    exec (.shlw a k) s = .next (s.respond (valueResponse (fwu 0)))) ∧
  (∀ s : State, ∃ t, exec (.dec 0) s = .next t ∧ t.rsp.kind = .string ∧ t.rsp.len = 1 ∧
    t.rsp.str[0] = 0x30 ∧ ∀ q (hq : q < 232), 1 ≤ q → t.rsp.str[q] = 0)

/-- 30_encoding.md R56: the pseudo-operations and their values. -/
def Obligations.PseudoOperationsRespondWithTheirValues : Prop :=
  ∀ (y : Fwu) (s : State),
    exec Instr.zero s = .next (s.respond (valueResponse (fwu 0))) ∧
    exec Instr.one s = .next (s.respond (valueResponse (fwu 1))) ∧
    exec (Instr.dbl y) s = .next (s.respond (valueResponse (fwu (2 * val y)))) ∧
    exec (Instr.sqr y) s = .next (s.respond (valueResponse (fwu (val y ^ 2))))

/-! FIB. -/

/-- 41_fast_doubling_fib.md R102: `msb(n)` is the largest `m` with `n[m] = 1`, and its bounds. -/
def Obligations.MsbIsHighestSetBit : Prop :=
  ∀ n : Scalar, n ≠ 0 →
    n.getLsbD (msb n) = true ∧ (∀ m, msb n < m → n.getLsbD m = false) ∧
    2 ^ msb n ≤ n.toNat ∧ n.toNat < 2 ^ (msb n + 1) ∧ msb n ≤ 63

/-- 41_fast_doubling_fib.md R103, R104: one iteration by the unit operations, from the pair at its start. -/
def Obligations.FibIterationUsesTheUnits : Prop :=
  ∀ (n : Scalar) (i : Nat) (w : FibPair),
    let c := mul w.a (sub (add w.b w.b) w.a)
    let d := add (mul w.a w.a) (mul w.b w.b)
    fibIter n i w = if n.getLsbD i then { a := d, b := add c d } else { a := c, b := d }

/-- 41_fast_doubling_fib.md R101, R109: FIB responds with the base cases directly, and else with the `a` that
one iteration for each bit below the most significant one, from the pair (1, 1), leaves. -/
def Obligations.FibRespondsByItsLoop : Prop :=
  ∀ (n : Scalar) (a b : Fwu) (s : State),
    decodeCommand { op := 4, a := a, b := b, k := n } = .ok (.fib n) ∧
    exec (.fib n) s = .next (s.respond (valueResponse (fib n))) ∧
    fib n =
      if n = 0 then fromSmallInteger 0
      else if n = 1 then fromSmallInteger 1
      else (forDown (fibIter n) (msb n) { a := fromSmallInteger 1, b := fromSmallInteger 1 }).a

/-- The law of 41_fast_doubling_fib.md R105, which the spec marks as derived: FIB responds with F(n) mod 2^768
for every 64-bit index. -/
def Obligations.FibRespondsWithFibonacciNumber : Prop :=
  ∀ (k : Scalar) (s : State), ∃ r : Fwu,
    exec (.fib k) s = .next (s.respond (valueResponse r)) ∧ val r = Nat.fib k.toNat % 2 ^ 768

/-- The loop invariant of 41_fast_doubling_fib.md R105, which the spec derives. After `m` iterations of FIB,
LOCAL holds the pair of the prefix of `n` scanned so far (one iteration a micro-step, log entry 10). -/
def Obligations.FibLoopHoldsPairOfPrefix : Prop :=
  ∀ (c : Command) (n : Scalar) (f m : Nat), n ≠ 0 → m ≤ msb n → ∃ (w : FibPair) (t : FibTemps),
    (localStep c)^[m] (localStart (.fib n) f) = .fib n (msb n - m) w t ∧
    val w.a = Nat.fib (n.toNat / 2 ^ (msb n - m)) % 2 ^ 768 ∧
    val w.b = Nat.fib (n.toNat / 2 ^ (msb n - m) + 1) % 2 ^ 768

/-- 41_fast_doubling_fib.md R106 (a) to (c), which the spec derives: the result is the true F(n) up to 1107,
and 1108 is the first index whose result is reduced. -/
def Obligations.FibExactUpTo1107 : Prop :=
  (∀ n : Scalar, n.toNat ≤ 1107 → val (fib n) = Nat.fib n.toNat) ∧
  Nat.fib 1107 < 2 ^ 768 ∧ 2 ^ 768 ≤ Nat.fib 1108 ∧ val (fib 1108) = Nat.fib 1108 - 2 ^ 768

/-- 41_fast_doubling_fib.md R106 (a) and (d), found by evaluation in the spec: 2212 is the smallest index at
which a SUB inside FIB borrows. -/
def Obligations.FibFirstBorrowsAt2212 : Prop :=
  (∀ n : Scalar, n.toNat < 2212 → fibBorrows n = false) ∧ fibBorrows 2212 = true

/-- 60_exceptions.md R173, 50_host_interface.md R150, R154: within the host's contract no SUB borrows, and
the results are the true difference and the true Fibonacci number. -/
def Obligations.ContractKeptMeansExactResults : Prop :=
  (∀ a b : Fwu, withinContract (.sub a b) → subBorrow a b = 0 ∧ val (sub a b) = val a - val b) ∧
  (∀ k : Scalar, withinContract (.fib k) → fibBorrows k = false ∧ val (fib k) = Nat.fib k.toNat)

/-! DEC. -/

/-- 42_decimal_formatter.md R122: DEC responds with what stripping leaves of the buffer, after doubling it and
adding the bit for each scanned bit, from all '0'. -/
def Obligations.DecRespondsByItsLoop : Prop :=
  ∀ (v b : Fwu) (k : Scalar) (s : State),
    decodeCommand { op := 5, a := v, b := b, k := k } = .ok (.dec v) ∧
    exec (.dec v) s = .next (s.respond (stripped
      (forDown (fun m D => addBit (double D) (scannedBit v m)) (scanBits v) (Vector.replicate 232 0x30))))

/-- 42_decimal_formatter.md R123: nothing is scanned of zero; else DEC responds with what doubling and adding
leaves when the cursors are visited from word `hw`, the highest nonzero one, down to word 0, in each word from
bit 31 down to bit 0; and which bit each cursor stands for. -/
def Obligations.ScanVisitsTheBitsOfTheUsedWords : Prop :=
  ∀ v : Fwu,
    (v = 0 → scanBits v = 0 ∧
      ∀ s : State, exec (.dec v) s = .next (s.respond (stripped (Vector.replicate 232 0x30)))) ∧
    (∀ hw, hw < 24 → wordAt v hw ≠ 0 → (∀ i, hw < i → i < 24 → wordAt v i = 0) →
      scanBits v = 32 * (hw + 1) ∧
      (scanCursors (hw + 1)).length = 32 * (hw + 1) ∧
      (∀ q, q < 32 * (hw + 1) → (scanCursors (hw + 1))[q]? = some (hw - q / 32, 31 - q % 32)) ∧
      ∀ s : State, exec (.dec v) s = .next (s.respond (stripped
        ((scanCursors (hw + 1)).foldl (fun D c => addBit (double D) ((wordAt v c.1).extractLsb' c.2 1))
          (Vector.replicate 232 0x30))))) ∧
    (∀ wi bi, wi < 24 → bi < 32 → scannedBit v (32 * wi + bi) = (wordAt v wi).extractLsb' bi 1) ∧
    (∀ wi bi, wi < 24 → bi < 32 → scannedBit v (32 * wi + bi) = v.extractLsb' (32 * wi + bi) 1)

/-- 42_decimal_formatter.md R124: `double`, digit by digit, with its decimal carry. -/
def Obligations.DoubleCarriesDigitByDigit : Prop :=
  ∀ D : Buffer, (∀ p (hp : p < 232), isDigit D[p] = true) → ∃ dc : Nat → Nat,
    dc 0 = 0 ∧ (doubleCarry D).toNat = dc 232 ∧ ∀ p (hp : p < 232),
      2 * (D[p].toNat - 0x30) + dc p ≤ 19 ∧
      if 10 ≤ 2 * (D[p].toNat - 0x30) + dc p then
        (double D)[p].toNat = 0x30 + (2 * (D[p].toNat - 0x30) + dc p - 10) ∧ dc (p + 1) = 1
      else
        (double D)[p].toNat = 0x30 + (2 * (D[p].toNat - 0x30) + dc p) ∧ dc (p + 1) = 0

/-- 42_decimal_formatter.md R125: `add_bit`, digit by digit while there is a carry. That after `double` the carry
never leaves the units digit, the last two clauses, is what the spec derives there from R124. -/
def Obligations.AddBitCarriesDigitByDigit : Prop :=
  ∀ (D : Buffer) (bit : Bit), (∀ p (hp : p < 232), isDigit D[p] = true) →
    (∃ dc : Nat → Nat, dc 0 = bit.toNat ∧ ∀ p (hp : p < 232),
      if dc p = 1 then
        if 10 ≤ D[p].toNat - 0x30 + 1 then
          (addBit D bit)[p].toNat = 0x30 + (D[p].toNat - 0x30 + 1 - 10) ∧ dc (p + 1) = 1
        else
          (addBit D bit)[p].toNat = 0x30 + (D[p].toNat - 0x30 + 1) ∧ dc (p + 1) = 0
      else (addBit D bit)[p] = D[p] ∧ dc (p + 1) = 0) ∧
    (addBit (double D) bit)[0].toNat = (double D)[0].toNat + bit.toNat ∧
    (∀ p (hp : p < 232), 1 ≤ p → (addBit (double D) bit)[p] = (double D)[p])

/-- 42_decimal_formatter.md R126: what `strip` drops, what it keeps, and in which order. -/
def Obligations.StripLeavesReadingOrder : Prop :=
  ∀ D : Buffer, ∃ l : Nat, (stripped D).len.toNat = l ∧ 1 ≤ l ∧ l ≤ 232 ∧
    (∀ p (hp : p < 232), l ≤ p → D[p] = 0x30) ∧
    (∀ hl : l - 1 < 232, 1 < l → D[l - 1] ≠ 0x30) ∧
    (∀ q (hq : q < 232) (hp : l - 1 - q < 232), q < l → (stripped D).str[q] = D[l - 1 - q]) ∧
    (∀ q (hq : q < 232), l ≤ q → (stripped D).str[q] = 0)

/-- 42_decimal_formatter.md R129, R130: DEC responds with the standard decimal text of its operand in reading
order, padded with 0x00. -/
def Obligations.DecRespondsWithDecimalText : Prop :=
  ∀ (a : Fwu) (s : State), ∃ r : Response,
    exec (.dec a) s = .next (s.respond r) ∧ r.kind = .string ∧ r.val = 0 ∧
    r.len.toNat = (decimalText (val a)).length ∧
    r.str.toList = decimalText (val a) ++ List.replicate (232 - (decimalText (val a)).length) 0

/-- The invariant of 42_decimal_formatter.md R127, which the spec derives: after `m` scanned bits the buffer
holds the decimal digits of the prefix scanned so far, all of them ASCII digits, and the next doubling loses
no carry (one scanned bit a micro-step, log entry 10). -/
def Obligations.DecBufferHoldsScannedPrefix : Prop :=
  ∀ (c : Command) (f m : Nat), m ≤ scanBits c.a → ∃ w : DecWork,
    (localStep c)^[m] (localStart (.dec c.a) f) = .dec (scanBits c.a - m) w ∧
    (∀ p (hp : p < 232), isDigit w.D[p] = true) ∧
    ∑ p ∈ Finset.range 232, digitVal (digitAt w.D p) * 10 ^ p = val c.a / 2 ^ (scanBits c.a - m) ∧
    (m < scanBits c.a → doubleCarry w.D = 0)

/-- 42_decimal_formatter.md R129, which the spec derives: scanning all 768 bits gives the same response, the
text is the standard decimal text, and its length is one more than the decimal logarithm. -/
def Obligations.DecEquivalentForms : Prop :=
  ∀ v : Fwu,
    stripped (decLoop v 768).D = toDecimal v ∧
    (toDecimal v).str.toList.take (toDecimal v).len.toNat = decimalText (val v) ∧
    (toDecimal v).len.toNat = if val v = 0 then 1 else Nat.log 10 (val v) + 1

/-- 42_decimal_formatter.md R121, derived in the spec: 232 digits are needed, DEC of the largest value using all of
them, and suffice: after every scan the buffer is worth the operand, with no digit lost. -/
def Obligations.DigitBufferCapacityIsExact : Prop :=
  10 ^ 231 < 2 ^ 768 ∧ 2 ^ 768 < 10 ^ 232 ∧
  (toDecimal (fwu (2 ^ 768 - 1))).len.toNat = 232 ∧ (decLoop (fwu (2 ^ 768 - 1)) 768).D[231] ≠ 0x30 ∧
  ∀ v : Fwu, (toDecimal v).len.toNat ≤ 232 ∧
    ∑ p ∈ Finset.range 232, digitVal (digitAt (decLoop v (scanBits v)).D p) * 10 ^ p = val v

/-! Responses and frames. -/

/-- 30_encoding.md R51: the form of a response of each kind, and that it carries the result: a VALUE in `val`, a
STRING in the first `len` characters of `str`. -/
def Obligations.ResponseFormOfEachKind : Prop :=
  ∀ (i : Instr) (s : State), ∃ t, exec i s = .next t ∧ t.rsp.kind = i.responseKind ∧
    (match i.responseKind with
    | .value  => t.rsp.len = 0 ∧ ∀ q (hq : q < 232), t.rsp.str[q] = 0
    | .string => t.rsp.val = 0 ∧ 1 ≤ t.rsp.len.toNat ∧ t.rsp.len.toNat ≤ 232 ∧
        (∀ q (hq : q < 232), q < t.rsp.len.toNat → isDigit t.rsp.str[q] = true) ∧
        (∀ q (hq : q < 232), t.rsp.len.toNat ≤ q → t.rsp.str[q] = 0)) ∧
    (match i with
    | .add a b  => t.rsp.val = add a b
    | .sub a b  => t.rsp.val = sub a b
    | .shlw a k => t.rsp.val = shiftWords a k.toNat
    | .mul a b  => t.rsp.val = mul a b
    | .fib k    => t.rsp.val = fib k
    | .dec a    => t.rsp.str.toList.take t.rsp.len.toNat = decimalText (val a)
    | .seed k   => t.rsp.val = fromSmallInteger k)

/-- The frame of the seven operations: `exec` forms the response of 50_host_interface.md R145 and moves the
phase; CMD and LOCAL are unspecified from then on (10_state.md R14, R17), and nothing else changes. -/
def Obligations.CompletionFrame : Prop :=
  ∀ (i : Instr) (s t : State), exec i s = .next t →
    t.phase = .done ∧ t.rsp = responseOf i ∧
    t.wait = s.wait ∧ t.wasReset = s.wasReset ∧ t.free = s.free ∧ t.inputs = s.inputs ∧ t.offer = s.offer

/-- The frame of an edge: what may change CMD, RSP and LOCAL (10_state.md R14, R15, R17), and what every edge
does to the model's own fields. -/
def Obligations.EdgeFrame : Prop :=
  ∀ s t : State, step s = .next t →
    t.wasReset = true ∧ t.inputs = s.inputs.tail ∧ t.free = s.free + 1 ∧
    t.offer = (if s.accepting then none else s.pins.offered) ∧
    (s.pins.rst = false → s.accepting = false → ¬ (s.phase = .busy ∧ s.wait = 0) → t.cmd = s.cmd) ∧
    (s.pins.rst = false → s.taking = false → ¬ (s.phase = .busy ∧ s.wait = 0) → t.rsp = s.rsp) ∧
    (s.pins.rst = false → s.accepting = false → s.phase ≠ .busy → t.loc = s.loc)

/-! The transaction protocol. -/

/-- 10_state.md R23, 70_reset_and_hazards.md R183: after reset the phase is IDLE, a command can be accepted
and no response is offered. -/
def Obligations.ResetStateIsIdle : Prop :=
  State.reset.phase = .idle ∧ State.reset.outputs.cmdReady = true ∧ State.reset.outputs.rspValid = false

/-- 70_reset_and_hazards.md R180, R181, R182 and 60_exceptions.md R163: from any state at all, one cycle of
`rst = 1` gives IDLE; nothing is accepted and nothing taken in it. -/
def Obligations.ResetWinsFromAnyState : Prop :=
  ∀ s : State, s.pins.rst = true →
    s.accepting = false ∧ s.taking = false ∧
    ∃ t, step s = .next t ∧ t.phase = .idle ∧ t.outputs.cmdReady = true ∧ t.outputs.rspValid = false

/-- 50_host_interface.md R141, R142, R163 (b): the handshakes, and that they never coincide. -/
def Obligations.HandshakesFollowPhase : Prop :=
  ∀ s : State,
    (s.outputs.cmdReady = true ↔ s.phase = .idle) ∧ (s.outputs.rspValid = true ↔ s.phase = .done) ∧
    (s.accepting = true ↔ s.pins.cmdValid = true ∧ s.outputs.cmdReady = true ∧ s.pins.rst = false) ∧
    (s.taking = true ↔ s.outputs.rspValid = true ∧ s.pins.rspReady = true ∧ s.pins.rst = false) ∧
    ¬ (s.accepting = true ∧ s.taking = true)

/-- 50_host_interface.md R143: the seven rows of the transition table, once there has been a reset
(70_reset_and_hazards.md R182), in cycles with `rst = 0` in which the host keeps its offer as R186 there obliges
it to. -/
def Obligations.TransitionTable : Prop :=
  ∀ s : State, s.pins.rst = false → s.wasReset = true → s.offerBroken = false →
    (∀ i, s.accepting = true → decodeCommand s.pins.command = .ok i →
      ∃ t f, step s = .next t ∧ t.phase = .busy ∧ t.cmd = s.pins.command ∧ t.loc = localStart i f) ∧
    (s.accepting = true → s.pins.cmdOp = 7 → step s = .refused .reservedOpcode) ∧
    (s.phase = .idle → s.accepting = false →
      ∃ t, step s = .next t ∧ t.phase = .idle ∧ t.cmd = s.cmd ∧ t.rsp = s.rsp ∧ t.loc = s.loc) ∧
    (∀ i, s.phase = .busy → decodeCommand s.cmd = .ok i →
      ∃ t, step s = .next t ∧
        ((t.phase = .done ∧ t.rsp = responseOf i) ∨ (t.phase = .busy ∧ t.cmd = s.cmd))) ∧
    (s.taking = true → s.event = .taken s.rsp ∧ ∃ t, step s = .next t ∧ t.phase = .idle) ∧
    (s.phase = .done → s.taking = false →
      ∃ t, step s = .next t ∧ t.phase = .done ∧ t.cmd = s.cmd ∧ t.rsp = s.rsp ∧ t.loc = s.loc)

/-- When a BUSY cycle completes: once the latency counted down in `wait` is over. The count is the model's form
of the open LATENCY of 70_reset_and_hazards.md R192 (log entry 5). -/
def Obligations.BusyCyclesFollowLatency : Prop :=
  ∀ (s : State) (i : Instr), s.pins.rst = false → s.wasReset = true → s.offerBroken = false →
    (s.accepting = true → decodeCommand s.pins.command = .ok i →
      ∃ t, step s = .next t ∧ t.wait = Config.latency s.pins.command) ∧
    (s.phase = .busy → s.wait = 0 → decodeCommand s.cmd = .ok i → ∃ t, step s = .next t ∧ t.phase = .done) ∧
    (s.phase = .busy → s.wait ≠ 0 → ∃ t, step s = .next t ∧ t.phase = .busy ∧ t.wait + 1 = s.wait)

/-- 10_state.md R13: the four transitions of the phase, no other, and its value at reset. -/
def Obligations.NoOtherPhaseTransition : Prop :=
  State.reset.phase = .idle ∧
  ∀ s t : State, step s = .next t →
    (s.pins.rst = true ∧ t.phase = .idle) ∨
    (s.phase = .idle ∧ s.accepting = true ∧ t.phase = .busy) ∨
    (s.phase = .busy ∧ t.phase = .done ∧ ∃ i, decodeCommand s.cmd = .ok i ∧ t.rsp = responseOf i) ∨
    (s.phase = .done ∧ s.taking = true ∧ t.phase = .idle) ∨
    (t.phase = s.phase ∧ s.accepting = false ∧ s.taking = false)

/-- 50_host_interface.md R147: while a response is offered the outputs are RSP, and until it is taken they do
not change. -/
def Obligations.ResponseHeldUntilTaken : Prop :=
  ∀ s t : State, step s = .next t → s.pins.rst = false → s.outputs.rspValid = true →
    s.outputs.rsp = s.rsp ∧ (s.taking = false → t.outputs = s.outputs)

/-- Step runs the decoded operation: in the completing BUSY cycle, `step` is `exec` of the operation in CMD,
at the state with the inputs of this cycle past, an unaccepted offer standing and the free index
advanced (50_host_interface.md R143, R145; the last three are the model's own, log entries 4, 6, 7). -/
def Obligations.StepRunsDecodedOperation : Prop :=
  ∀ (s : State) (i : Instr), s.pins.rst = false → s.wasReset = true → s.offerBroken = false →
    s.phase = .busy → s.wait = 0 → decodeCommand s.cmd = .ok i →
    step s = exec i { s with
      inputs := s.inputs.tail
      offer  := s.pins.offered
      free   := s.free + 1 }

/-- 10_state.md R21, 30_encoding.md R50: the response depends on the operation and the fields it reads, and on
nothing else of the state. -/
def Obligations.ResponseDependsOnOperationAlone : Prop :=
  ∀ s₁ s₂ t₁ t₂ : State, ∀ i : Instr,
    s₁.phase = .busy → s₂.phase = .busy → decodeCommand s₁.cmd = .ok i → decodeCommand s₂.cmd = .ok i →
    step s₁ = .next t₁ → step s₂ = .next t₂ → t₁.phase = .done → t₂.phase = .done →
    t₁.rsp = t₂.rsp

/-- 70_reset_and_hazards.md R186: an offer not accepted stands; a cycle that withdraws it, or changes it in a
field the operation reads, is refused by name; a change in an ignored field is no violation. That the
model stops there, by name, is its own treatment of what the rule leaves without a meaning (log entry 7). -/
def Obligations.UnstableOfferIsRefused : Prop :=
  (∀ s t : State, step s = .next t → s.pins.cmdValid = true → s.accepting = false →
    t.offer = some s.pins.command) ∧
  (∀ (s : State) (c : Command), s.pins.rst = false → s.wasReset = true → s.offer = some c →
    (s.pins.cmdValid = false ∨ s.pins.cmdOp ≠ c.op ∨ decodeCommand s.pins.command ≠ decodeCommand c) →
    step s = .refused .unstableCommand) ∧
  (∀ (s : State) (c : Command) (i : Instr), s.offer = some c → s.pins.cmdValid = true →
    decodeCommand c = .ok i → decodeCommand s.pins.command = .ok i → s.offerBroken = false)

/-! Runs. -/

/-- The invariant holds after reset. -/
def Obligations.InvariantHoldsAtReset : Prop := State.reset.Inv

/-- Every step keeps the invariant: in BUSY, CMD is legal and LOCAL is on its operation's way, reached from its
initial working state by micro-steps of the model's grain (log entries 9, 10); in DONE, RSP has the form of
30_encoding.md R51. -/
def Obligations.StepKeepsInvariant : Prop := ∀ s t : State, s.Inv → step s = .next t → t.Inv

/-- 10_state.md R17, 50_host_interface.md R143: in BUSY, running LOCAL to the end of its loop gives the
response that `exec` forms from CMD, wherever in its loop LOCAL stands (log entries 9, 10). -/
def Obligations.WorkingStorageReachesTheResponse : Prop :=
  ∀ (s : State) (i : Instr), s.Inv → s.phase = .busy → decodeCommand s.cmd = .ok i →
    localResponse i ((localStep s.cmd)^[loopLength i] s.loc) = some (responseOf i)

/-- 50_host_interface.md R149, with 40_bigint_arithmetic.md R84, 41_fast_doubling_fib.md R108 and
42_decimal_formatter.md R123: every loop has a fixed finite bound and then stands still (one loop
iteration a micro-step, log entry 10). -/
def Obligations.EveryLoopIsBounded : Prop :=
  (∀ (c : Command) (i : Instr) (f : Nat), decodeCommand c = .ok i →
    localStep c ((localStep c)^[loopLength i] (localStart i f)) = (localStep c)^[loopLength i] (localStart i f)) ∧
  (∀ i : Instr, loopLength i ≤ 768) ∧ (∀ n : Scalar, loopLength (.fib n) ≤ 63) ∧
  loopLength (.fib 1000) = 9 ∧ (∀ a b : Fwu, loopLength (.mul a b) = mulPairs.length) ∧ mulPairs.length = 300

/-- 50_host_interface.md R146, R149: an accepted command completes after its latency, with the response of
the operation captured at its acceptance, whatever a host that drives no reset and keeps its offers does
meanwhile. The latency is the model's form of the open LATENCY (log entry 5). -/
def Obligations.AcceptedCommandCompletes : Prop :=
  ∀ (s : State) (i : Instr), s.accepting = true → s.wasReset = true → s.offerBroken = false →
    decodeCommand s.pins.command = .ok i →
    hostKeeps none (s.inputs.tail.take (Config.latency s.pins.command + 1)) = true →
    ∃ t, Host.Core.run Sys2Proof.core (Config.latency s.pins.command + 2) s = .next t ∧
      t.phase = .done ∧ t.outputs.rspValid = true ∧ t.outputs.rsp = responseOf i

/-- 50_host_interface.md R142, R144, 70_reset_and_hazards.md R181: in every run from IDLE the events match:
one command at a time, one response for each unless a reset comes first, in order, and no response
without a command. -/
def Obligations.ResponsesMatchCommands : Prop :=
  ∀ (k : Nat) (s : State), s.phase = .idle → matched none (trace k s)

/-- 50_host_interface.md R156: once a run has ended the block owes the host nothing: no later cycle offers a
response. That no command is offered any more is read from the model's own inputs (log entry 6). -/
def Obligations.EndedRunStaysEnded : Prop :=
  ∀ (k : Nat) (s : State), s.runEnded = true → ∃ t, Host.Core.run Sys2Proof.core k s = .next t ∧
    t.runEnded = true ∧ t.outputs.cmdReady = true ∧ t.outputs.rspValid = false

/-- 70_reset_and_hazards.md R182, 93_implementation_defined.md U7: at power-up, whatever the content, a cycle of
`rst = 0` has no meaning and is refused by name; one cycle of `rst = 1` ends that time, and it does not
come back. The mark that holds it is the model's own (log entry 17). -/
def Obligations.NoRuleBeforeTheFirstReset : Prop :=
  (∀ content : State, content.powerUp.pins.rst = false → step content.powerUp = .refused .neverReset) ∧
  (∀ content : State, content.powerUp.pins.rst = true →
    ∃ t, step content.powerUp = .next t ∧ t.phase = .idle ∧ t.wasReset = true) ∧
  (∀ s t : State, step s = .next t → t.wasReset = true) ∧ State.reset.wasReset = true

/-! The loops, step by step. -/

/-- The invariant of the loops holds after reset. -/
def Obligations.LoopInvariantHoldsAtReset : Prop := State.reset.LoopInv

/-- Every step keeps the invariant of the loops (40_bigint_arithmetic.md R71, R74, R83;
41_fast_doubling_fib.md R105; 42_decimal_formatter.md R127, which the spec derives): in BUSY, LOCAL is worth what
the part of the loop already processed is worth. How far a step advances LOCAL, and what one micro-step
of it is, are the model's choices (log entries 9, 10). -/
def Obligations.StepKeepsLoopInvariant : Prop :=
  ∀ s t : State, s.LoopInv → step s = .next t → t.LoopInv

/-- 50_host_interface.md R142, R144, 70_reset_and_hazards.md R181: what one step does to the command inside the
block. A reset drops it; an acceptance finds the block empty and puts the accepted command inside; a taking
gives its own response and leaves the block empty; any other step keeps it. -/
def Obligations.StepCarriesTheCommandInside : Prop :=
  ∀ (s t : State) (inside : Option Instr), s.holds inside → step s = .next t →
    match s.event with
    | .reset      => t.holds none
    | .quiet      => t.holds inside
    | .accepted i => inside = none ∧ t.holds (some i)
    | .taken r    => (∃ i, inside = some i ∧ r = responseOf i) ∧ t.holds none
end

