-- ==== Sys2Proof/Laws/Words.lean ====
section
/-! SUPPORT. Loops, and the words of a FixedWidthUint: what a word is worth, and what writing one does. -/

namespace Sys2Proof.Machine

/-! Loops. -/

theorem forUp_zero {σ : Type} (body : Nat → σ → σ) (s : σ) : forUp body s 0 = s := rfl

theorem forUp_succ {σ : Type} (body : Nat → σ → σ) (s : σ) (n : Nat) :
    forUp body s (n + 1) = body n (forUp body s n) := rfl

theorem forDown_zero {σ : Type} (body : Nat → σ → σ) (s : σ) : forDown body 0 s = s := rfl

theorem forDown_succ {σ : Type} (body : Nat → σ → σ) (n : Nat) (s : σ) :
    forDown body (n + 1) s = forDown body n (body n s) := rfl

/-- A property that holds at the start of an ascending loop and that each pass carries on holds after
any number of passes. -/
theorem forUp_induct {σ : Type} (P : Nat → σ → Prop) (body : Nat → σ → σ) (s : σ) (h0 : P 0 s) (n : Nat)
    (hs : ∀ i x, i < n → P i x → P (i + 1) (body i x)) : P n (forUp body s n) := by
  induction n with
  | zero => exact h0
  | succ n ih => exact hs n _ n.lt_succ_self (ih fun i x hi => hs i x (Nat.lt_succ_of_lt hi))

/-- A property that each pass of a descending loop carries on holds after the loop. -/
theorem forDown_induct {σ : Type} (P : Nat → σ → Prop) (body : Nat → σ → σ) (n : Nat) (s : σ) (h0 : P n s)
    (hs : ∀ i x, i < n → P (i + 1) x → P i (body i x)) : P 0 (forDown body n s) := by
  induction n generalizing s with
  | zero => exact h0
  | succ n ih => exact ih _ (hs n s n.lt_succ_self h0) fun i x hi => hs i x (Nat.lt_succ_of_lt hi)

/-! Words. -/

theorem wordAt_toNat (a : Fwu) (i : Nat) : (wordAt a i).toNat = a.toNat / 2 ^ (32 * i) % 2 ^ 32 := by
  simp [wordAt, Nat.shiftRight_eq_div_pow]

/-- The words below `n` are worth `a mod 2^(32n)`; one word more. -/
theorem mod_pow_succ_word (a : Fwu) (n : Nat) :
    a.toNat % 2 ^ (32 * (n + 1)) = a.toNat % 2 ^ (32 * n) + (wordAt a n).toNat * 2 ^ (32 * n) := by
  rw [wordAt_toNat, show 32 * (n + 1) = 32 * n + 32 by ring, pow_add, Nat.mod_mul]
  ring

theorem toNat_mod_full (a : Fwu) : a.toNat % 2 ^ (32 * 24) = a.toNat := Nat.mod_eq_of_lt a.isLt

/-- `val(a)` is the sum of the words by their weights, taken up to word `n - 1`. -/
theorem mod_pow_eq_sum (a : Fwu) (n : Nat) :
    a.toNat % 2 ^ (32 * n) = ∑ i ∈ Finset.range n, (wordAt a i).toNat * 2 ^ (32 * i) := by
  induction n with
  | zero => simp [Nat.mod_one]
  | succ n ih => rw [mod_pow_succ_word, Finset.sum_range_succ, ih]

/-- A value below `2^(32n)` with a word on top of it is below `2^(32(n+1))`. -/
theorem add_word_lt {x n : Nat} (w : Word) (h : x < 2 ^ (32 * n)) :
    x + w.toNat * 2 ^ (32 * n) < 2 ^ (32 * (n + 1)) := by
  have hw : w.toNat + 1 ≤ 2 ^ 32 := w.isLt
  calc x + w.toNat * 2 ^ (32 * n) < (w.toNat + 1) * 2 ^ (32 * n) := by rw [add_one_mul]; omega
    _ ≤ 2 ^ 32 * 2 ^ (32 * n) := Nat.mul_le_mul_right _ hw
    _ = 2 ^ (32 * (n + 1)) := by rw [← pow_add]; congr 1; ring

theorem putWord_toNat (c : Fwu) {i : Nat} (x : Word) (hi : i < 24) :
    (putWord c i x).toNat = c.toNat % 2 ^ (32 * i) + x.toNat * 2 ^ (32 * i) := by
  have h := add_word_lt x (Nat.mod_lt c.toNat (Nat.two_pow_pos (32 * i)))
  have h' : 2 ^ (32 * (i + 1)) ≤ 2 ^ 768 := Nat.pow_le_pow_right (by norm_num) (by omega)
  simp only [putWord, BitVec.toNat_ofNat]
  exact Nat.mod_eq_of_lt (h.trans_le h')

/-- Two values are equal when all 24 words are. -/
theorem eq_of_words {a b : Fwu} (h : ∀ i, i < 24 → wordAt a i = wordAt b i) : a = b := by
  apply BitVec.eq_of_toNat_eq
  rw [← toNat_mod_full a, ← toNat_mod_full b, mod_pow_eq_sum, mod_pow_eq_sum]
  exact Finset.sum_congr rfl fun i hi => by rw [h i (Finset.mem_range.mp hi)]

theorem wordAt_putWord_self (c : Fwu) {i : Nat} (x : Word) (hi : i < 24) : wordAt (putWord c i x) i = x := by
  apply BitVec.eq_of_toNat_eq
  rw [wordAt_toNat, putWord_toNat c x hi, Nat.add_mul_div_right _ _ (Nat.two_pow_pos _),
    Nat.div_eq_of_lt (Nat.mod_lt _ (Nat.two_pow_pos _)), zero_add, Nat.mod_eq_of_lt x.isLt]

theorem wordAt_putWord_lt (c : Fwu) {i j : Nat} (x : Word) (hi : i < 24) (hj : j < i) :
    wordAt (putWord c i x) j = wordAt c j := by
  apply BitVec.eq_of_toNat_eq
  rw [wordAt_toNat, wordAt_toNat, putWord_toNat c x hi]
  obtain ⟨d, rfl⟩ : ∃ d, i = j + 1 + d := ⟨i - (j + 1), by omega⟩
  have e : 2 ^ (32 * (j + 1 + d)) = 2 ^ (32 * j) * (2 ^ 32 * 2 ^ (32 * d)) := by
    rw [← pow_add, ← pow_add]; congr 1; ring
  rw [e, show x.toNat * (2 ^ (32 * j) * (2 ^ 32 * 2 ^ (32 * d)))
      = 2 ^ (32 * j) * (2 ^ 32 * (2 ^ (32 * d) * x.toNat)) by ring,
    Nat.add_mul_div_left _ _ (Nat.two_pow_pos _), Nat.add_mul_mod_self_left, Nat.mod_mul_right_div_self,
    Nat.mod_mul_right_mod]

theorem wordAt_ofWords (f : Nat → Word) {j : Nat} (hj : j < 24) : wordAt (ofWords f) j = f j := by
  have h := forUp_induct (fun n c => n ≤ 24 → ∀ j, j < n → wordAt c j = f j)
    (fun i c => putWord c i (f i)) 0 (by simp) 24 (by
      intro i x hi ih _ j hj
      rcases Nat.lt_succ_iff_lt_or_eq.mp hj with h | rfl
      · rw [wordAt_putWord_lt _ _ hi h]; exact ih (by omega) j h
      · exact wordAt_putWord_self _ _ hi)
  exact h le_rfl j hj

end Sys2Proof.Machine
end

