-- ==== Sys2Proof/Laws/BigInt.lean ====
section
/-! SUPPORT. One law per unit of 40_bigint_arithmetic.md: what ADD, SUB, SHLW, SEED and MUL are worth. -/

namespace Sys2Proof.Machine

/-! Carries and borrows of one position. -/

theorem bit_toNat_le (x : Bit) : x.toNat ≤ 1 := Nat.le_of_lt_succ x.isLt

theorem sumCarry_toNat {x y : Word} {cy : Bit} :
    (sumCarry (carrySum x y cy)).toNat = carrySum x y cy / 2 ^ 32 := by
  have hx := x.isLt
  have hy := y.isLt
  have hc := bit_toNat_le cy
  simp only [sumCarry, BitVec.toNat_ofNat]
  apply Nat.mod_eq_of_lt
  unfold carrySum
  omega

theorem sumWord_toNat (t : Nat) : (sumWord t).toNat = t % 2 ^ 32 := BitVec.toNat_ofNat _ _

/-- One borrow position: the result word and the borrow account for the difference exactly. -/
theorem borrow_position (x y : Word) (bw : Bit) :
    x.toNat + (diffBorrow (borrowDiff x y bw)).toNat * 2 ^ 32
      = (diffWord (borrowDiff x y bw)).toNat + y.toNat + bw.toNat := by
  have hx := x.isLt
  have hy := y.isLt
  have hb := bit_toNat_le bw
  have h1 : (1 : Bit).toNat = 1 := rfl
  have h0 : (0 : Bit).toNat = 0 := rfl
  unfold diffBorrow diffWord borrowDiff
  split <;> simp only [BitVec.toNat_ofNat, h1, h0] <;> omega

/-! ADD (R70, R71). -/

/-- One word position of ADD carries the invariant of 40_bigint_arithmetic.md R71 on. -/
theorem addWord_invariant (a b : Fwu) {i : Nat} (h24 : i < 24) {w : AddWork} (hlt : w.c.toNat < 2 ^ (32 * i))
    (heq : w.c.toNat + w.cy.toNat * 2 ^ (32 * i) = a.toNat % 2 ^ (32 * i) + b.toNat % 2 ^ (32 * i)) :
    (addWord a b i w).c.toNat < 2 ^ (32 * (i + 1)) ∧
      (addWord a b i w).c.toNat + (addWord a b i w).cy.toNat * 2 ^ (32 * (i + 1))
        = a.toNat % 2 ^ (32 * (i + 1)) + b.toNat % 2 ^ (32 * (i + 1)) := by
  have hc : (addWord a b i w).c.toNat = w.c.toNat +
      (carrySum (wordAt a i) (wordAt b i) w.cy % 2 ^ 32) * 2 ^ (32 * i) := by
    rw [addWord, putWord_toNat _ _ h24, Nat.mod_eq_of_lt hlt, sumWord_toNat]
  have hcy : (addWord a b i w).cy.toNat = carrySum (wordAt a i) (wordAt b i) w.cy / 2 ^ 32 := sumCarry_toNat
  constructor
  · have h := add_word_lt (sumWord (carrySum (wordAt a i) (wordAt b i) w.cy)) hlt
    rwa [sumWord_toNat, ← hc] at h
  · rw [hc, hcy, mod_pow_succ_word, mod_pow_succ_word, show 32 * (i + 1) = 32 + 32 * i by ring, pow_add]
    have ht := Nat.mod_add_div (carrySum (wordAt a i) (wordAt b i) w.cy) (2 ^ 32)
    have hs : carrySum (wordAt a i) (wordAt b i) w.cy
      = (wordAt a i).toNat + (wordAt b i).toNat + w.cy.toNat := rfl
    generalize carrySum (wordAt a i) (wordAt b i) w.cy = t at ht hs ⊢
    calc w.c.toNat + t % 2 ^ 32 * 2 ^ (32 * i) + t / 2 ^ 32 * (2 ^ 32 * 2 ^ (32 * i))
        = w.c.toNat + (t % 2 ^ 32 + 2 ^ 32 * (t / 2 ^ 32)) * 2 ^ (32 * i) := by ring
      _ = (w.c.toNat + w.cy.toNat * 2 ^ (32 * i))
          + ((wordAt a i).toNat + (wordAt b i).toNat) * 2 ^ (32 * i) := by rw [ht, hs]; ring
      _ = _ := by rw [heq]; ring

/-- The invariant of 40_bigint_arithmetic.md R71 after `n` word positions. -/
theorem addLoop_invariant (a b : Fwu) {n : Nat} (hn : n ≤ 24) :
    (addLoop a b n).c.toNat < 2 ^ (32 * n) ∧
      (addLoop a b n).c.toNat + (addLoop a b n).cy.toNat * 2 ^ (32 * n)
        = a.toNat % 2 ^ (32 * n) + b.toNat % 2 ^ (32 * n) :=
  forUp_induct (fun n (w : AddWork) => w.c.toNat < 2 ^ (32 * n) ∧
    w.c.toNat + w.cy.toNat * 2 ^ (32 * n) = a.toNat % 2 ^ (32 * n) + b.toNat % 2 ^ (32 * n))
    (addWord a b) addStart (by simp [addStart, Nat.mod_one]) n
    fun _ _ hi h => addWord_invariant a b (by omega) h.1 h.2

/-- A result word of ADD is the sum word of its position (40_bigint_arithmetic.md R70). -/
theorem wordAt_addLoop (a b : Fwu) {n : Nat} (hn : n ≤ 24) {i : Nat} (hi : i < n) :
    wordAt (addLoop a b n).c i = sumWord (carrySum (wordAt a i) (wordAt b i) (addLoop a b i).cy) := by
  induction n with
  | zero => omega
  | succ n ih =>
    rw [addLoop, forUp_succ]
    show wordAt (putWord _ _ _) i = _
    rcases Nat.lt_succ_iff_lt_or_eq.mp hi with h | rfl
    · rw [wordAt_putWord_lt _ _ (by omega) h]; exact ih (by omega) h
    · rw [wordAt_putWord_self _ _ (by omega)]; rfl

/-- What ADD and its dropped carry are worth together. -/
theorem add_with_carry (a b : Fwu) : (add a b).toNat + (addCarry a b).toNat * 2 ^ 768 = a.toNat + b.toNat := by
  have h := (addLoop_invariant a b (n := 24) le_rfl).2
  rwa [toNat_mod_full, toNat_mod_full] at h

theorem add_toNat (a b : Fwu) : (add a b).toNat = (a.toNat + b.toNat) % 2 ^ 768 := by
  rw [← add_with_carry, Nat.add_mul_mod_self_right, Nat.mod_eq_of_lt (add a b).isLt]

/-- ADD is addition of the ring of residues modulo 2^768. -/
theorem add_eq (a b : Fwu) : add a b = a + b := BitVec.eq_of_toNat_eq (by rw [add_toNat, BitVec.toNat_add])

/-! SUB (R73, R74, R75). -/

/-- One word position of SUB carries the invariant of 40_bigint_arithmetic.md R74 on. -/
theorem subWord_invariant (a b : Fwu) {i : Nat} (h24 : i < 24) {w : SubWork} (hlt : w.c.toNat < 2 ^ (32 * i))
    (heq : a.toNat % 2 ^ (32 * i) + w.bw.toNat * 2 ^ (32 * i) = w.c.toNat + b.toNat % 2 ^ (32 * i)) :
    (subWord a b i w).c.toNat < 2 ^ (32 * (i + 1)) ∧
      a.toNat % 2 ^ (32 * (i + 1)) + (subWord a b i w).bw.toNat * 2 ^ (32 * (i + 1))
        = (subWord a b i w).c.toNat + b.toNat % 2 ^ (32 * (i + 1)) := by
  have hc : (subWord a b i w).c.toNat = w.c.toNat +
      (diffWord (borrowDiff (wordAt a i) (wordAt b i) w.bw)).toNat * 2 ^ (32 * i) := by
    rw [subWord, putWord_toNat _ _ h24, Nat.mod_eq_of_lt hlt]
  have hbw : (subWord a b i w).bw = diffBorrow (borrowDiff (wordAt a i) (wordAt b i) w.bw) := rfl
  constructor
  · rw [hc]; exact add_word_lt _ hlt
  · rw [hc, hbw, mod_pow_succ_word, mod_pow_succ_word, show 32 * (i + 1) = 32 + 32 * i by ring, pow_add]
    have hp := borrow_position (wordAt a i) (wordAt b i) w.bw
    generalize (diffBorrow (borrowDiff (wordAt a i) (wordAt b i) w.bw)).toNat = bo at hp ⊢
    generalize (diffWord (borrowDiff (wordAt a i) (wordAt b i) w.bw)).toNat = d at hp ⊢
    calc a.toNat % 2 ^ (32 * i) + (wordAt a i).toNat * 2 ^ (32 * i) + bo * (2 ^ 32 * 2 ^ (32 * i))
        = a.toNat % 2 ^ (32 * i) + ((wordAt a i).toNat + bo * 2 ^ 32) * 2 ^ (32 * i) := by ring
      _ = (a.toNat % 2 ^ (32 * i) + w.bw.toNat * 2 ^ (32 * i))
          + (d + (wordAt b i).toNat) * 2 ^ (32 * i) := by rw [hp]; ring
      _ = _ := by rw [heq]; ring

/-- The invariant of 40_bigint_arithmetic.md R74 after `n` word positions. -/
theorem subLoop_invariant (a b : Fwu) {n : Nat} (hn : n ≤ 24) :
    (subLoop a b n).c.toNat < 2 ^ (32 * n) ∧
      a.toNat % 2 ^ (32 * n) + (subLoop a b n).bw.toNat * 2 ^ (32 * n)
        = (subLoop a b n).c.toNat + b.toNat % 2 ^ (32 * n) :=
  forUp_induct (fun n (w : SubWork) => w.c.toNat < 2 ^ (32 * n) ∧
    a.toNat % 2 ^ (32 * n) + w.bw.toNat * 2 ^ (32 * n) = w.c.toNat + b.toNat % 2 ^ (32 * n))
    (subWord a b) subStart (by simp [subStart, Nat.mod_one]) n
    fun _ _ hi h => subWord_invariant a b (by omega) h.1 h.2

/-- A result word of SUB is the difference word of its position (40_bigint_arithmetic.md R73). -/
theorem wordAt_subLoop (a b : Fwu) {n : Nat} (hn : n ≤ 24) {i : Nat} (hi : i < n) :
    wordAt (subLoop a b n).c i = diffWord (borrowDiff (wordAt a i) (wordAt b i) (subLoop a b i).bw) := by
  induction n with
  | zero => omega
  | succ n ih =>
    rw [subLoop, forUp_succ]
    show wordAt (putWord _ _ _) i = _
    rcases Nat.lt_succ_iff_lt_or_eq.mp hi with h | rfl
    · rw [wordAt_putWord_lt _ _ (by omega) h]; exact ih (by omega) h
    · rw [wordAt_putWord_self _ _ (by omega)]; rfl

/-- What SUB and its dropped borrow are worth together. -/
theorem sub_with_borrow (a b : Fwu) : a.toNat + (subBorrow a b).toNat * 2 ^ 768 = (sub a b).toNat + b.toNat := by
  have h := (subLoop_invariant a b (n := 24) le_rfl).2
  rwa [toNat_mod_full, toNat_mod_full] at h

/-- A difference with its borrow accounted for is the difference modulo `M`. -/
theorem emod_of_borrow {M x y s b : Nat} (h : x + b * M = s + y) (hs : s < M) : (s : Int) = ((x : Int) - y) % (M : Nat) := by
  have h2 : (x : Int) + b * M = s + y := by exact_mod_cast h
  rw [show (x : Int) - y = s + M * (-b : Int) by linarith, Int.add_mul_emod_self_left,
    Int.emod_eq_of_lt (by positivity) (by exact_mod_cast hs)]

/-- SUB is subtraction of the ring of residues modulo 2^768. -/
theorem sub_eq (a b : Fwu) : sub a b = a - b := by
  rw [eq_comm, sub_eq_iff_eq_add]
  apply BitVec.eq_of_toNat_eq
  rw [BitVec.toNat_add, ← sub_with_borrow, Nat.add_mul_mod_self_right, Nat.mod_eq_of_lt a.isLt]

/-- `sub_borrow` is 1 exactly where the minuend is below the subtrahend. -/
theorem subBorrow_eq_one_iff (a b : Fwu) : subBorrow a b = 1 ↔ a.toNat < b.toNat := by
  have h := sub_with_borrow a b
  have hs := (sub a b).isLt
  have hb := b.isLt
  have hle := bit_toNat_le (subBorrow a b)
  have key : subBorrow a b = 1 ↔ (subBorrow a b).toNat = 1 :=
    ⟨fun e => by rw [e]; rfl, fun e => BitVec.eq_of_toNat_eq e⟩
  rw [key]
  constructor
  · intro e; rw [e] at h; omega
  · intro hlt
    by_contra hne
    have h0 : (subBorrow a b).toNat = 0 := by omega
    rw [h0] at h; omega

/-! SEED (R66). -/

theorem fromSmallInteger_toNat (k : Scalar) : (fromSmallInteger k).toNat = k.toNat := by
  have hk := k.isLt
  rw [fromSmallInteger, putWord_toNat _ _ (by norm_num), putWord_toNat _ _ (by norm_num)]
  simp only [BitVec.extractLsb'_toNat, Nat.shiftRight_eq_div_pow]
  omega

/-! SHLW (R78, R79). -/

theorem wordAt_shiftWords (a : Fwu) (s : Nat) {i : Nat} (hi : i < 24) :
    wordAt (shiftWords a s) i = if s ≤ i then wordAt a (i - s) else 0 := wordAt_ofWords _ hi

/-- SHLW is the shift of the 768-bit vector by whole words. -/
theorem shiftWords_eq (a : Fwu) (s : Nat) : shiftWords a s = a <<< (32 * s) := by
  apply eq_of_words
  intro i hi
  rw [wordAt_shiftWords a s hi]
  apply BitVec.eq_of_getLsbD_eq
  intro j hj
  simp only [wordAt]
  split
  · simp only [BitVec.getLsbD_extractLsb', BitVec.getLsbD_shiftLeft]
    rw [show 32 * (i - s) + j = 32 * i + j - 32 * s by omega]
    have h1 : 32 * i + j < 768 := by omega
    have h2 : ¬ 32 * i + j < 32 * s := by omega
    simp [hj, h1, h2]
  · simp only [BitVec.getLsbD_extractLsb', BitVec.getLsbD_shiftLeft]
    have h2 : 32 * i + j < 32 * s := by omega
    simp [h2]

theorem shiftWords_toNat (a : Fwu) (s : Nat) : (shiftWords a s).toNat = a.toNat * 2 ^ (32 * s) % 2 ^ 768 := by
  rw [shiftWords_eq, BitVec.toNat_shiftLeft, Nat.shiftLeft_eq]

/-! MUL (R82, R83). -/

theorem partialProduct_toNat (a b : Fwu) (i j : Nat) : (partialProduct a b i j).toNat
    = (wordAt a i).toNat * 2 ^ (32 * i) * ((wordAt b j).toNat * 2 ^ (32 * j)) % 2 ^ 768 := by
  have hp : (wordProduct a b i j).toNat = (wordAt a i).toNat * (wordAt b j).toNat := by
    have ha := (wordAt a i).isLt
    have hb := (wordAt b j).isLt
    simp only [wordProduct, BitVec.toNat_ofNat]
    exact Nat.mod_eq_of_lt (by nlinarith)
  rw [partialProduct, shiftWords_toNat, fromSmallInteger_toNat, hp, mul_add, pow_add]
  congr 1
  ring

/-- A partial product with `i + j >= 24` is shifted out (40_bigint_arithmetic.md R83). -/
theorem partialProduct_eq_zero (a b : Fwu) {i j : Nat} (h : 24 ≤ i + j) : partialProduct a b i j = 0 := by
  rw [partialProduct, shiftWords_eq]
  exact BitVec.shiftLeft_eq_zero (by omega)

/-- One pair of MUL adds its word product at its weight (40_bigint_arithmetic.md R82). -/
theorem mulPair_toNat (a b acc : Fwu) (i j : Nat) : (mulPair a b i j acc).toNat
    = (acc.toNat + (wordAt a i).toNat * 2 ^ (32 * i) * ((wordAt b j).toNat * 2 ^ (32 * j))) % 2 ^ 768 := by
  rw [mulPair, add_toNat, partialProduct_toNat, Nat.add_mod_mod]

/-- One row of MUL adds word `i` of `a` times the words of `b` below `m`. -/
theorem mulRow_toNat (a b acc : Fwu) (i m : Nat) : (mulRow a b i m acc).toNat
    = (acc.toNat + (wordAt a i).toNat * 2 ^ (32 * i) * (b.toNat % 2 ^ (32 * m))) % 2 ^ 768 := by
  refine forUp_induct (fun m (x : Fwu) => x.toNat
    = (acc.toNat + (wordAt a i).toNat * 2 ^ (32 * i) * (b.toNat % 2 ^ (32 * m))) % 2 ^ 768)
    (mulPair a b i) acc (by simp [Nat.mod_one, Nat.mod_eq_of_lt acc.isLt]) m ?_
  intro j x _ hx
  rw [mulPair_toNat, hx, Nat.mod_add_mod, mod_pow_succ_word b j]
  congr 1
  ring

/-- Row `r` of MUL, cut at `r + j < 24`, is worth word `r` of `a` times the whole of `b`. -/
theorem row_mod (x : Nat) {r : Nat} (hr : r ≤ 24) (b : Nat) :
    (x * 2 ^ (32 * r) * (b % 2 ^ (32 * (24 - r)))) % 2 ^ 768 = (x * 2 ^ (32 * r) * b) % 2 ^ 768 := by
  rw [show (768 : Nat) = 32 * r + 32 * (24 - r) by omega, pow_add,
    show x * 2 ^ (32 * r) * (b % 2 ^ (32 * (24 - r))) = 2 ^ (32 * r) * (x * (b % 2 ^ (32 * (24 - r)))) by ring,
    show x * 2 ^ (32 * r) * b = 2 ^ (32 * r) * (x * b) by ring, Nat.mul_mod_mul_left, Nat.mul_mod_mul_left]
  congr 1
  rw [Nat.mul_mod, Nat.mod_mod, ← Nat.mul_mod]

/-- MUL after `n` whole rows. -/
theorem mulRows_toNat (a b : Fwu) {n : Nat} (hn : n ≤ 24) :
    (forUp (fun r acc => mulRow a b r (24 - r) acc) 0 n).toNat = a.toNat % 2 ^ (32 * n) * b.toNat % 2 ^ 768 := by
  refine forUp_induct (fun n (x : Fwu) => x.toNat = a.toNat % 2 ^ (32 * n) * b.toNat % 2 ^ 768)
    _ 0 (by simp [Nat.mod_one]) n ?_
  intro r x hr hx
  rw [mulRow_toNat, hx, Nat.add_mod, Nat.mod_mod, row_mod _ (by omega), ← Nat.add_mod, mod_pow_succ_word a r]
  congr 1
  ring

theorem mul_toNat (a b : Fwu) : (mul a b).toNat = a.toNat * b.toNat % 2 ^ 768 := by
  rw [mul, mulLoop, mulRow, forUp_zero, mulRows_toNat a b le_rfl, toNat_mod_full]

/-- MUL is multiplication of the ring of residues modulo 2^768. -/
theorem mul_eq (a b : Fwu) : mul a b = a * b := BitVec.eq_of_toNat_eq (by rw [mul_toNat, BitVec.toNat_mul])

end Sys2Proof.Machine
end

