-- ==== Sys2Proof/Laws/Decimal.lean ====
section
/-! SUPPORT. The digit buffer as a decimal number: what doubling and adding a bit do to it, what the scan
leaves in it, and what stripping makes of it (42_decimal_formatter.md R124 to R129). -/

namespace Sys2Proof.Machine

/-- The decimal number in a list of positions, units first (42_decimal_formatter.md R127). -/
def digitsVal (ds : List Byte) : Nat := Nat.ofDigits 10 (ds.map digitVal)

/-- Every position holds an ASCII digit (42_decimal_formatter.md R121). -/
def AllDigits (ds : List Byte) : Prop := ∀ d ∈ ds, isDigit d = true

theorem digitsVal_nil : digitsVal [] = 0 := rfl

theorem digitsVal_cons (d : Byte) (ds : List Byte) : digitsVal (d :: ds) = digitVal d + 10 * digitsVal ds := by
  simp [digitsVal, Nat.ofDigits_cons]

theorem allDigits_cons {d : Byte} {ds : List Byte} : AllDigits (d :: ds) ↔ isDigit d = true ∧ AllDigits ds := by
  simp [AllDigits]

theorem isDigit_iff {d : Byte} : isDigit d = true ↔ 0x30 ≤ d.toNat ∧ d.toNat ≤ 0x39 := by
  simp [isDigit]

theorem digitVal_le {d : Byte} (h : isDigit d = true) : digitVal d ≤ 9 := by
  have := isDigit_iff.mp h
  unfold digitVal
  omega

theorem ascii_toNat {x : Nat} (h : x ≤ 9) : (ascii x).toNat = 0x30 + x := by
  simp only [ascii, BitVec.toNat_ofNat]
  omega

theorem isDigit_ascii {x : Nat} (h : x ≤ 9) : isDigit (ascii x) = true := by
  rw [isDigit_iff, ascii_toNat h]
  omega

theorem digitVal_ascii {x : Nat} (h : x ≤ 9) : digitVal (ascii x) = x := by
  rw [digitVal, ascii_toNat h]
  omega

/-- A digit is the ASCII code of what it stands for. -/
theorem ascii_digitVal {d : Byte} (h : isDigit d = true) : ascii (digitVal d) = d := by
  have hd := isDigit_iff.mp h
  apply BitVec.eq_of_toNat_eq
  rw [ascii_toNat (digitVal_le h), digitVal]
  omega

/-- The decimal value of some positions is below the power of ten of their number. -/
theorem digitsVal_lt {ds : List Byte} (h : AllDigits ds) : digitsVal ds < 10 ^ ds.length := by
  have := Nat.ofDigits_lt_base_pow_length (b := 10) (l := ds.map digitVal) (by norm_num) (by
    intro x hx
    obtain ⟨d, hd, rfl⟩ := List.mem_map.mp hx
    exact Nat.lt_succ_of_le (digitVal_le (h d hd)))
  simpa [digitsVal] using this

/-! One position. -/

theorem digitWrap_spec {x : Nat} (h : x ≤ 19) :
    isDigit (digitWrap x) = true ∧ digitVal (digitWrap x) + 10 * (digitCarry x).toNat = x := by
  have h1 : (1 : Bit).toNat = 1 := rfl
  have h0 : (0 : Bit).toNat = 0 := rfl
  unfold digitWrap digitCarry
  split
  · rw [digitVal_ascii (by omega), h1]
    exact ⟨isDigit_ascii (by omega), by omega⟩
  · rw [digitVal_ascii (by omega), h0]
    exact ⟨isDigit_ascii (by omega), by omega⟩

/-! The two passes. -/

/-- `double` doubles, its carry out counting for the position above (42_decimal_formatter.md R124). -/
theorem doubleDigits_spec (dc : Bit) {ds : List Byte} (h : AllDigits ds) :
    AllDigits (doubleDigits dc ds).1 ∧
      digitsVal (doubleDigits dc ds).1 + (doubleDigits dc ds).2.toNat * 10 ^ ds.length
        = 2 * digitsVal ds + dc.toNat := by
  induction ds generalizing dc with
  | nil => simp [doubleDigits, AllDigits, digitsVal_nil]
  | cons d ds ih =>
    obtain ⟨hd, hds⟩ := allDigits_cons.mp h
    have hx : 2 * digitVal d + dc.toNat ≤ 19 := by
      have := digitVal_le hd
      have := dc.isLt
      omega
    obtain ⟨w1, w2⟩ := digitWrap_spec hx
    obtain ⟨i1, i2⟩ := ih (digitCarry (2 * digitVal d + dc.toNat)) hds
    simp only [doubleDigits]
    refine ⟨allDigits_cons.mpr ⟨w1, i1⟩, ?_⟩
    rw [digitsVal_cons, digitsVal_cons, List.length_cons, pow_succ]
    linarith

/-- `add_bit` adds, its carry out counting for the position above (42_decimal_formatter.md R125). -/
theorem addDigits_spec (dc : Bit) {ds : List Byte} (h : AllDigits ds) :
    AllDigits (addDigits dc ds).1 ∧
      digitsVal (addDigits dc ds).1 + (addDigits dc ds).2.toNat * 10 ^ ds.length = digitsVal ds + dc.toNat := by
  induction ds generalizing dc with
  | nil => simp [addDigits, AllDigits, digitsVal_nil]
  | cons d ds ih =>
    obtain ⟨hd, hds⟩ := allDigits_cons.mp h
    unfold addDigits
    split
    · have hx : digitVal d + dc.toNat ≤ 19 := by
        have := digitVal_le hd
        have := dc.isLt
        omega
      obtain ⟨w1, w2⟩ := digitWrap_spec hx
      obtain ⟨i1, i2⟩ := ih (digitCarry (digitVal d + dc.toNat)) hds
      refine ⟨allDigits_cons.mpr ⟨w1, i1⟩, ?_⟩
      simp only [digitsVal_cons, List.length_cons, pow_succ]
      linarith
    · rename_i hne
      have h0 : dc = 0 := by
        apply BitVec.eq_of_toNat_eq
        have := dc.isLt
        have : dc.toNat ≠ 1 := fun e => hne (BitVec.eq_of_toNat_eq e)
        show dc.toNat = 0
        omega
      subst h0
      exact ⟨h, by simp⟩

/-! The buffer. -/

theorem double_toList (D : Buffer) : (double D).toList = (doubleDigits 0 D.toList).1 := rfl

theorem addBit_toList (D : Buffer) (bit : Bit) : (addBit D bit).toList = (addDigits bit D.toList).1 := rfl

theorem buffer_length (D : Buffer) : D.toList.length = 232 := by simp

/-- `double` where nothing is lost (42_decimal_formatter.md R127). -/
theorem double_spec {D : Buffer} (h : AllDigits D.toList) (hlt : 2 * digitsVal D.toList < 10 ^ 232) :
    AllDigits (double D).toList ∧ digitsVal (double D).toList = 2 * digitsVal D.toList ∧ doubleCarry D = 0 := by
  obtain ⟨h1, h2⟩ := doubleDigits_spec 0 h
  rw [buffer_length, show (0 : Bit).toNat = 0 from rfl, add_zero] at h2
  have hc : (doubleDigits 0 D.toList).2.toNat = 0 := by
    by_contra hne
    have : 1 * 10 ^ 232 ≤ (doubleDigits 0 D.toList).2.toNat * 10 ^ 232 :=
      Nat.mul_le_mul_right _ (Nat.one_le_iff_ne_zero.mpr hne)
    omega
  refine ⟨h1, ?_, BitVec.eq_of_toNat_eq hc⟩
  rw [double_toList]
  rw [hc] at h2
  simpa using h2

/-- `add_bit` where nothing is lost (42_decimal_formatter.md R127). -/
theorem addBit_spec {D : Buffer} (h : AllDigits D.toList) (bit : Bit)
    (hlt : digitsVal D.toList + bit.toNat < 10 ^ 232) :
    AllDigits (addBit D bit).toList ∧ digitsVal (addBit D bit).toList = digitsVal D.toList + bit.toNat := by
  obtain ⟨h1, h2⟩ := addDigits_spec bit h
  rw [buffer_length] at h2
  have hc : (addDigits bit D.toList).2.toNat = 0 := by
    by_contra hne
    have : 1 * 10 ^ 232 ≤ (addDigits bit D.toList).2.toNat * 10 ^ 232 :=
      Nat.mul_le_mul_right _ (Nat.one_le_iff_ne_zero.mpr hne)
    omega
  refine ⟨h1, ?_⟩
  rw [addBit_toList]
  rw [hc] at h2
  simpa using h2

/-! The scan. -/

/-- The scanned bit at `m` is bit `m` of the value (42_decimal_formatter.md R123). -/
theorem scannedBit_toNat (v : Fwu) (m : Nat) : (scannedBit v m).toNat = v.toNat / 2 ^ m % 2 := by
  have e : m = 32 * (m / 32) + m % 32 := (Nat.div_add_mod m 32).symm
  have hr : m % 32 < 32 := Nat.mod_lt _ (by norm_num)
  simp only [scannedBit, BitVec.extractLsb'_toNat, wordAt_toNat, Nat.shiftRight_eq_div_pow, pow_one]
  generalize hq : m / 32 = q at *
  generalize hs : m % 32 = r at *
  subst e
  obtain ⟨d, hd⟩ : ∃ d, 32 = r + (1 + d) := ⟨31 - r, by omega⟩
  rw [pow_add 2 (32 * q) r, ← Nat.div_div_eq_div_mul]
  generalize v.toNat / 2 ^ (32 * q) = x
  conv_lhs => rw [hd, pow_add, Nat.mod_mul_right_div_self, pow_add, pow_one, Nat.mod_mul_right_mod]

theorem shift_scannedBit (v : Fwu) (m : Nat) :
    v.toNat / 2 ^ m = 2 * (v.toNat / 2 ^ (m + 1)) + (scannedBit v m).toNat := by
  rw [scannedBit_toNat, pow_succ, ← Nat.div_div_eq_div_mul]
  omega

/-- A value is below the power of ten of the buffer's size (42_decimal_formatter.md R121). -/
theorem value_lt_capacity (v : Fwu) : v.toNat < 10 ^ 232 := v.isLt.trans (by decide +kernel)

/-- What holds of the buffer once the bits at and above `m` have been scanned
(42_decimal_formatter.md R127). -/
def Scanned (v : Fwu) (m : Nat) (w : DecWork) : Prop :=
  AllDigits w.D.toList ∧ digitsVal w.D.toList = v.toNat / 2 ^ m

theorem Scanned.decBit {v : Fwu} {m : Nat} {w : DecWork} (h : Scanned v (m + 1) w) :
    Scanned v m (decBit v m w) ∧ doubleCarry w.D = 0 := by
  obtain ⟨h1, h2⟩ := h
  have hs := shift_scannedBit v m
  have hcap : v.toNat / 2 ^ m < 10 ^ 232 := (Nat.div_le_self _ _).trans_lt (value_lt_capacity v)
  obtain ⟨d1, d2, d3⟩ := double_spec h1 (by omega)
  obtain ⟨a1, a2⟩ := addBit_spec d1 (scannedBit v m) (by omega)
  exact ⟨⟨a1, by rw [Machine.decBit, a2, d2, h2, ← hs]⟩, d3⟩

/-- The buffer before the scan holds 0 (42_decimal_formatter.md R121). -/
theorem scanned_start {v : Fwu} {m : Nat} (h : v.toNat < 2 ^ m) : Scanned v m decStart := by
  have hl : decStart.D.toList = List.replicate 232 (ascii 0) := by simp [decStart]
  refine ⟨?_, ?_⟩
  · rw [hl]
    intro d hd
    rw [List.eq_of_mem_replicate hd]
    exact isDigit_ascii (by norm_num)
  · rw [hl, Nat.div_eq_of_lt h]
    have : ∀ n, digitsVal (List.replicate n (ascii 0)) = 0 := by
      intro n
      induction n with
      | zero => rfl
      | succ n ih => rw [List.replicate_succ, digitsVal_cons, ih, digitVal_ascii (by norm_num)]
    exact this 232

/-- Scanning any number of bits that covers the value leaves its decimal digits in the buffer
(42_decimal_formatter.md R127, R129). -/
theorem decLoop_scanned {v : Fwu} {m : Nat} (h : v.toNat < 2 ^ m) : Scanned v 0 (decLoop v m) :=
  forDown_induct (Scanned v) (decBit v) m decStart (scanned_start h) fun _ _ _ hx => hx.decBit.1

theorem lt_usedWords (v : Fwu) (n : Nat) : v.toNat % 2 ^ (32 * n) < 2 ^ (32 * usedWords v n) := by
  induction n with
  | zero => simp [usedWords, Nat.mod_one]
  | succ n ih =>
    unfold usedWords
    split
    · rename_i h
      rwa [mod_pow_succ_word, h, show (0 : Word).toNat = 0 from rfl, zero_mul, add_zero]
    · exact Nat.mod_lt _ (Nat.two_pow_pos _)

/-- The scan covers the value (42_decimal_formatter.md R123). -/
theorem lt_scanBits (v : Fwu) : v.toNat < 2 ^ scanBits v := by
  have h := lt_usedWords v 24
  rwa [toNat_mod_full] at h

/-! Stripping. -/

/-- Two buffers of digits with the same decimal value are the same buffer. -/
theorem digits_unique {xs ys : List Byte} (hl : xs.length = ys.length) (hx : AllDigits xs) (hy : AllDigits ys)
    (h : digitsVal xs = digitsVal ys) : xs = ys := by
  induction xs generalizing ys with
  | nil => simpa using hl.symm
  | cons x xs ih =>
    cases ys with
    | nil => simp at hl
    | cons y ys =>
      obtain ⟨hx1, hx2⟩ := allDigits_cons.mp hx
      obtain ⟨hy1, hy2⟩ := allDigits_cons.mp hy
      rw [digitsVal_cons, digitsVal_cons] at h
      have lx := digitVal_le hx1
      have ly := digitVal_le hy1
      have e : digitVal x = digitVal y := by omega
      rw [ih (by simpa using hl) hx2 hy2 (by omega), ← ascii_digitVal hx1, ← ascii_digitVal hy1, e]

end Sys2Proof.Machine
end

