-- ==== Sys2Proof/Laws/DecimalText.lean ====
section
/-! SUPPORT. What `strip(D)` leaves: the standard decimal text (42_decimal_formatter.md R126, R129). -/

namespace Sys2Proof.Machine

/-- Where stripping stops: zeros above, no zero on top but of a single digit (42_decimal_formatter.md R126). -/
theorem stripLen_spec (D : Buffer) {n : Nat} (hn : 1 ≤ n) :
    1 ≤ stripLen D n ∧ stripLen D n ≤ n ∧
    (∀ p, stripLen D n ≤ p → p < n → digitAt D p = ascii 0) ∧
    (1 < stripLen D n → digitAt D (stripLen D n - 1) ≠ ascii 0) := by
  induction n with
  | zero => omega
  | succ n ih =>
    cases n with
    | zero => exact ⟨le_rfl, le_rfl, by simp only [stripLen]; omega, by simp [stripLen]⟩
    | succ n =>
      obtain ⟨h1, h2, h3, h4⟩ := ih (by omega)
      rw [stripLen]
      split
      · rename_i h
        refine ⟨h1, by omega, ?_, h4⟩
        intro p hp hp2
        rcases Nat.lt_succ_iff_lt_or_eq.mp hp2 with hh | rfl
        · exact h3 p hp hh
        · exact h
      · rename_i h
        exact ⟨by omega, le_rfl, by omega, fun _ => h⟩

/-- Zeros on top do not count. -/
theorem digitsVal_take {ds : List Byte} (hd : AllDigits ds) {l : Nat} (hl : l ≤ ds.length)
    (hz : ∀ p, l ≤ p → (hp : p < ds.length) → ds[p] = ascii 0) : digitsVal ds = digitsVal (ds.take l) := by
  induction ds generalizing l with
  | nil => simp
  | cons d ds ih =>
    obtain ⟨h1, h2⟩ := allDigits_cons.mp hd
    cases l with
    | zero =>
      have := ih h2 (Nat.zero_le _) (fun p _ hp => hz (p+1) (by omega) (by simpa using hp))
      rw [digitsVal_cons, this, List.take_zero, List.take_zero, digitsVal_nil]
      have := hz 0 le_rfl (by simp)
      simp only [List.getElem_cons_zero] at this
      rw [this, digitVal_ascii (by norm_num)]
    | succ l =>
      rw [List.take_succ_cons, digitsVal_cons, digitsVal_cons]
      rw [ih h2 (by simpa using hl) (fun p h hp => hz (p+1) (by omega) (by simpa using hp))]

/-- Positions with no zero on top are the decimal digits of what they are worth. -/
theorem digits_of_top {ds : List Byte} (hd : AllDigits ds) (hne : ds ≠ []) (ht : ds.getLast hne ≠ ascii 0) :
    Nat.digits 10 (digitsVal ds) = ds.map digitVal := by
  unfold digitsVal
  apply Nat.digits_ofDigits 10 (by norm_num)
  · intro l hl
    obtain ⟨d, hd', rfl⟩ := List.mem_map.mp hl
    exact Nat.lt_succ_of_le (digitVal_le (hd d hd'))
  · intro h
    rw [List.getLast_map]
    intro h0
    apply ht
    rw [← ascii_digitVal (hd _ (List.getLast_mem hne)), h0]

/-- Digits are the ASCII codes of what they stand for. -/
theorem map_ascii {ds : List Byte} (hd : AllDigits ds) : (ds.map digitVal).map ascii = ds := by
  rw [List.map_map]
  conv_rhs => rw [← List.map_id ds]
  apply List.map_congr_left
  intro d h; exact ascii_digitVal (hd d h)

theorem digitAt_eq (D : Buffer) {p : Nat} (hp : p < 232) : digitAt D p = D.toList[p]'(by simpa using hp) := by
  unfold digitAt
  rw [List.getD_eq_getElem _ _ (by simpa using hp)]

/-- `strip(D)`: the digits it keeps, read from the top, are the standard decimal text of what the buffer is
worth (42_decimal_formatter.md R126, R129). -/
theorem strip_text {D : Buffer} (hd : AllDigits D.toList) :
    (D.toList.take (stripLen D 232)).reverse = decimalText (digitsVal D.toList) := by
  obtain ⟨h1, h2, h3, h4⟩ := stripLen_spec D (n := 232) (by norm_num)
  have hl : D.toList.length = 232 := by simp
  have hv : digitsVal D.toList = digitsVal (D.toList.take (stripLen D 232)) :=
    digitsVal_take hd (by omega) (fun p hp hp2 => by rw [← digitAt_eq D (by omega)]; exact h3 p hp (by omega))
  have hdt : AllDigits (D.toList.take (stripLen D 232)) := fun d h => hd d (List.mem_of_mem_take h)
  have hlen : (D.toList.take (stripLen D 232)).length = stripLen D 232 := by rw [List.length_take]; omega
  rw [hv]
  generalize hds : D.toList.take (stripLen D 232) = ds at *
  have hne : ds ≠ [] := by intro h; subst h; simp at hlen; omega
  have hget : ds.getLast hne = digitAt D (stripLen D 232 - 1) := by
    rw [digitAt_eq D (by omega), List.getLast_eq_getElem]
    subst hds
    simp only [List.getElem_take, hlen]
  by_cases h5 : 1 < stripLen D 232
  · have ht := h4 h5
    rw [← hget] at ht
    have hdig := digits_of_top hdt hne ht
    have hnz : digitsVal ds ≠ 0 := by
      intro h0; rw [h0] at hdig; simp at hdig; exact hne hdig
    rw [decimalText, if_neg hnz, hdig, map_ascii hdt]
  · have e : stripLen D 232 = 1 := by omega
    rw [e] at hlen
    obtain ⟨d, rfl⟩ := List.length_eq_one_iff.mp hlen
    have hdd : isDigit d = true := hdt d (by simp)
    have hle := digitVal_le hdd
    rw [digitsVal_cons, digitsVal_nil, Nat.mul_zero, Nat.add_zero, decimalText]
    split
    · rename_i h0; rw [← ascii_digitVal hdd, h0]; rfl
    · rename_i h0; rw [Nat.digits_of_lt 10 _ h0 (by omega)]; simp [ascii_digitVal hdd]

/-- `str` of `strip(D)`: the kept digits from the top, then 0x00 (42_decimal_formatter.md R126). -/
theorem stripStr_toList (D : Buffer) {l : Nat} (hl : l ≤ 232) :
    (stripStr D l).toList = (D.toList.take l).reverse ++ List.replicate (232 - l) 0 := by
  apply List.ext_getElem
  · simp; omega
  · intro q h1 h2
    have hq : q < 232 := by simpa using h1
    show ((List.range 232).map fun q => if q < l then digitAt D (l - 1 - q) else 0)[q]'(by simpa using hq) = _
    rw [List.getElem_map, List.getElem_range]
    have hL : (D.toList.take l).length = l := by simp; omega
    split
    · rename_i h
      rw [List.getElem_append_left (by rw [List.length_reverse, hL]; exact h), List.getElem_reverse,
        List.getElem_take, digitAt_eq D (by omega)]
      simp only [hL]
    · rename_i h
      rw [List.getElem_append_right (by rw [List.length_reverse, hL]; omega), List.getElem_replicate]

/-- The buffer as the sum of its digits by their weights (42_decimal_formatter.md R127). -/
theorem digitsVal_sum (D : Buffer) :
    ∑ p ∈ Finset.range 232, digitVal (digitAt D p) * 10 ^ p = digitsVal D.toList := by
  have key : ∀ ds : List Byte, ∑ p ∈ Finset.range ds.length, digitVal (ds.getD p (ascii 0)) * 10 ^ p = digitsVal ds := by
    intro ds
    induction ds with
    | nil => rfl
    | cons d ds ih =>
      rw [List.length_cons, Finset.sum_range_succ', digitsVal_cons, ← ih, Finset.mul_sum]
      simp only [List.getD_cons_succ, List.getD_cons_zero, pow_zero, mul_one, pow_succ]
      rw [add_comm]; congr 1
      apply Finset.sum_congr rfl; intros; ring
  have := key D.toList
  rwa [show D.toList.length = 232 by simp] at this

end Sys2Proof.Machine
end

