-- ==== Sys2Proof/Laws/Decode.lean ====
section
/-! SUPPORT. Fields of a packed vector written as a sum of weights (30_encoding.md R46, R57). -/

namespace Sys2Proof

/-- The `m` bits at bit `n` of `lo + x * 2^n + hi * 2^(n+m)` are `x`. -/
theorem field_of_sum {lo x hi n m : Nat} (hlo : lo < 2 ^ n) (hx : x < 2 ^ m) :
    (lo + x * 2 ^ n + hi * 2 ^ (n + m)) / 2 ^ n % 2 ^ m = x := by
  rw [pow_add, show lo + x * 2 ^ n + hi * (2 ^ n * 2 ^ m) = lo + 2 ^ n * (x + 2 ^ m * hi) by ring,
    Nat.add_mul_div_left _ _ (Nat.two_pow_pos n), Nat.div_eq_of_lt hlo, zero_add, Nat.add_mul_mod_self_left,
    Nat.mod_eq_of_lt hx]

/-- A sum of weights grows by one field. -/
theorem sum_lt {lo x n m : Nat} (hlo : lo < 2 ^ n) (hx : x < 2 ^ m) : lo + x * 2 ^ n < 2 ^ (n + m) := by
  calc lo + x * 2 ^ n < (x + 1) * 2 ^ n := by rw [add_one_mul]; omega
    _ ≤ 2 ^ m * 2 ^ n := Nat.mul_le_mul_right _ hx
    _ = 2 ^ (n + m) := by rw [← pow_add, add_comm]

/-- A field of a vector given by a sum of weights below the vector's range. -/
theorem extract_of_sum {w lo x hi n m : Nat} (hlo : lo < 2 ^ n) (hx : x < 2 ^ m)
    (hw : lo + x * 2 ^ n + hi * 2 ^ (n + m) < 2 ^ w) :
    ((BitVec.ofNat w (lo + x * 2 ^ n + hi * 2 ^ (n + m))).extractLsb' n m).toNat = x := by
  rw [BitVec.extractLsb'_toNat, BitVec.toNat_ofNat, Nat.mod_eq_of_lt hw, Nat.shiftRight_eq_div_pow,
    field_of_sum hlo hx]

/-- Character `q` of the packed lanes. -/
theorem packLanes_lane {l : List Byte} {q : Nat} (hq : q < l.length) :
    packLanes l / 2 ^ (8 * q) % 2 ^ 8 = l[q].toNat := by
  induction l generalizing q with
  | nil => simp at hq
  | cons d ds ih =>
    have hd := d.isLt
    cases q with
    | zero => simp only [packLanes, Nat.mul_zero, pow_zero, Nat.div_one, List.getElem_cons_zero]; omega
    | succ q =>
      rw [show 8 * (q + 1) = 8 + 8 * q by ring, pow_add, ← Nat.div_div_eq_div_mul, packLanes,
        show (d.toNat + 256 * packLanes ds) / 2 ^ 8 = packLanes ds by omega]
      exact ih (by simpa using hq)

theorem packLanes_lt (l : List Byte) : packLanes l < 2 ^ (8 * l.length) := by
  induction l with
  | nil => simp [packLanes]
  | cons d ds ih =>
    have hd := d.isLt
    rw [packLanes, List.length_cons, show 8 * (ds.length + 1) = 8 + 8 * ds.length by ring, pow_add]
    omega

/-- The four fields of a vector written as a sum of four weights. -/
theorem fields_of_sum {x₀ x₁ x₂ x₃ n₀ n₁ n₂ n₃ m₁ m₂ w : Nat} (e₁ : m₁ = n₀ + n₁) (e₂ : m₂ = m₁ + n₂)
    (ew : w = m₂ + n₃) (h₀ : x₀ < 2 ^ n₀) (h₁ : x₁ < 2 ^ n₁) (h₂ : x₂ < 2 ^ n₂) (h₃ : x₃ < 2 ^ n₃) :
    let v := BitVec.ofNat w (x₀ + x₁ * 2 ^ n₀ + x₂ * 2 ^ m₁ + x₃ * 2 ^ m₂)
    (v.extractLsb' 0 n₀).toNat = x₀ ∧ (v.extractLsb' n₀ n₁).toNat = x₁ ∧
    (v.extractLsb' m₁ n₂).toNat = x₂ ∧ (v.extractLsb' m₂ n₃).toNat = x₃ := by
  subst e₁ e₂ ew
  have g₁ := sum_lt h₀ h₁
  have g₂ := sum_lt g₁ h₂
  have g₃ := sum_lt g₂ h₃
  have s₀ : x₀ + x₁ * 2 ^ n₀ + x₂ * 2 ^ (n₀ + n₁) + x₃ * 2 ^ (n₀ + n₁ + n₂)
      = 0 + x₀ * 2 ^ 0 + (x₁ + x₂ * 2 ^ n₁ + x₃ * 2 ^ (n₁ + n₂)) * 2 ^ (0 + n₀) := by ring
  have s₁ : x₀ + x₁ * 2 ^ n₀ + x₂ * 2 ^ (n₀ + n₁) + x₃ * 2 ^ (n₀ + n₁ + n₂)
      = x₀ + x₁ * 2 ^ n₀ + (x₂ + x₃ * 2 ^ n₂) * 2 ^ (n₀ + n₁) := by ring
  have s₃ : x₀ + x₁ * 2 ^ n₀ + x₂ * 2 ^ (n₀ + n₁) + x₃ * 2 ^ (n₀ + n₁ + n₂)
      = (x₀ + x₁ * 2 ^ n₀ + x₂ * 2 ^ (n₀ + n₁)) + x₃ * 2 ^ (n₀ + n₁ + n₂) + 0 * 2 ^ (n₀ + n₁ + n₂ + n₃) := by ring
  refine ⟨?_, ?_, extract_of_sum g₁ h₂ g₃, ?_⟩
  · rw [s₀] at g₃ ⊢; exact extract_of_sum (Nat.two_pow_pos 0) h₀ g₃
  · rw [s₁] at g₃ ⊢; exact extract_of_sum h₀ h₁ g₃
  · rw [s₃] at g₃ ⊢; exact extract_of_sum g₂ h₃ g₃

/-- Where each field stands in a packed command (30_encoding.md R46). -/
theorem packCommand_fields (c : Command) :
    (packCommand c).extractLsb' 0 768 = c.a ∧ (packCommand c).extractLsb' 768 768 = c.b ∧
    (packCommand c).extractLsb' 1536 64 = c.k ∧ (packCommand c).extractLsb' 1600 3 = c.op := by
  obtain ⟨ha, hb, hk, ho⟩ := fields_of_sum (m₁ := 1536) (m₂ := 1600) (w := 1603) rfl rfl rfl
    c.a.isLt c.b.isLt c.k.isLt c.op.isLt
  exact ⟨BitVec.eq_of_toNat_eq ha, BitVec.eq_of_toNat_eq hb, BitVec.eq_of_toNat_eq hk, BitVec.eq_of_toNat_eq ho⟩

theorem packLanes_str_lt (s : Vector Byte 232) : packLanes s.toList < 2 ^ 1856 := by
  simpa using packLanes_lt s.toList

/-- Where each field stands in a packed response (30_encoding.md R57). -/
theorem packResponse_fields (r : Response) :
    (packResponse r).extractLsb' 0 768 = r.val ∧
    ((packResponse r).extractLsb' 768 1856).toNat = packLanes r.str.toList ∧
    (packResponse r).extractLsb' 2624 8 = r.len ∧ (packResponse r).extractLsb' 2632 1 = kindBit r.kind := by
  obtain ⟨hv, hs, hl, hk⟩ := fields_of_sum (m₁ := 2624) (m₂ := 2632) (w := 2633) rfl rfl rfl
    r.val.isLt (packLanes_str_lt r.str) r.len.isLt (kindBit r.kind).isLt
  exact ⟨BitVec.eq_of_toNat_eq hv, hs, BitVec.eq_of_toNat_eq hl, BitVec.eq_of_toNat_eq hk⟩

/-- A field of a field is a field. -/
theorem extractLsb_extractLsb {w : Nat} (v : BitVec w) (s l s' l' : Nat) (h : s' + l' ≤ l) :
    (v.extractLsb' s l).extractLsb' s' l' = v.extractLsb' (s + s') l' := by
  apply BitVec.eq_of_getLsbD_eq
  intro j hj
  have : s' + j < l := by omega
  simp [hj, this, Nat.add_assoc]

end Sys2Proof
end

