-- ==== Sys2Proof/Laws/State.lean ====
section
/-! SUPPORT. One lemma per field of State per update: what each edge operation writes, and what it leaves
alone. -/

namespace Sys2Proof.Machine

variable (s : State)

@[simp] theorem State.tick_phase : s.tick.phase = s.phase := rfl
@[simp] theorem State.tick_cmd : s.tick.cmd = s.cmd := rfl
@[simp] theorem State.tick_rsp : s.tick.rsp = s.rsp := rfl
@[simp] theorem State.tick_loc : s.tick.loc = s.loc := rfl
@[simp] theorem State.tick_wait : s.tick.wait = s.wait := rfl
@[simp] theorem State.tick_wasReset : s.tick.wasReset = s.wasReset := rfl
@[simp] theorem State.tick_free : s.tick.free = s.free + 1 := rfl
@[simp] theorem State.tick_inputs : s.tick.inputs = s.inputs.tail := rfl
@[simp] theorem State.tick_offer : s.tick.offer = if s.accepting then none else s.pins.offered := rfl

@[simp] theorem State.resetEdge_phase : s.resetEdge.phase = .idle := rfl
@[simp] theorem State.resetEdge_cmd : s.resetEdge.cmd = Config.freeCommand s.free := rfl
@[simp] theorem State.resetEdge_rsp : s.resetEdge.rsp = Config.freeResponse s.free := rfl
@[simp] theorem State.resetEdge_loc : s.resetEdge.loc = Config.freeLocal s.free := rfl
@[simp] theorem State.resetEdge_wait : s.resetEdge.wait = 0 := rfl
@[simp] theorem State.resetEdge_wasReset : s.resetEdge.wasReset = true := rfl
@[simp] theorem State.resetEdge_free : s.resetEdge.free = s.free := rfl
@[simp] theorem State.resetEdge_inputs : s.resetEdge.inputs = s.inputs := rfl
@[simp] theorem State.resetEdge_offer : s.resetEdge.offer = s.offer := rfl

@[simp] theorem State.capture_phase (c : Command) (i : Instr) : (s.capture c i).phase = .busy := rfl
@[simp] theorem State.capture_cmd (c : Command) (i : Instr) : (s.capture c i).cmd = c := rfl
@[simp] theorem State.capture_rsp (c : Command) (i : Instr) : (s.capture c i).rsp = s.rsp := rfl
@[simp] theorem State.capture_loc (c : Command) (i : Instr) : (s.capture c i).loc = localStart i s.free := rfl
@[simp] theorem State.capture_wait (c : Command) (i : Instr) : (s.capture c i).wait = Config.latency c := rfl
@[simp] theorem State.capture_wasReset (c : Command) (i : Instr) : (s.capture c i).wasReset = s.wasReset := rfl
@[simp] theorem State.capture_free (c : Command) (i : Instr) : (s.capture c i).free = s.free := rfl
@[simp] theorem State.capture_inputs (c : Command) (i : Instr) : (s.capture c i).inputs = s.inputs := rfl
@[simp] theorem State.capture_offer (c : Command) (i : Instr) : (s.capture c i).offer = s.offer := rfl

@[simp] theorem State.advance_phase : s.advance.phase = s.phase := rfl
@[simp] theorem State.advance_cmd : s.advance.cmd = s.cmd := rfl
@[simp] theorem State.advance_rsp : s.advance.rsp = s.rsp := rfl
@[simp] theorem State.advance_loc : s.advance.loc = (localStep s.cmd)^[Config.freeWork s.free] s.loc := rfl
@[simp] theorem State.advance_wait : s.advance.wait = s.wait - 1 := rfl
@[simp] theorem State.advance_wasReset : s.advance.wasReset = s.wasReset := rfl
@[simp] theorem State.advance_free : s.advance.free = s.free := rfl
@[simp] theorem State.advance_inputs : s.advance.inputs = s.inputs := rfl
@[simp] theorem State.advance_offer : s.advance.offer = s.offer := rfl

@[simp] theorem State.respond_phase (r : Response) : (s.respond r).phase = .done := rfl
@[simp] theorem State.respond_cmd (r : Response) : (s.respond r).cmd = Config.freeCommand s.free := rfl
@[simp] theorem State.respond_rsp (r : Response) : (s.respond r).rsp = r := rfl
@[simp] theorem State.respond_loc (r : Response) : (s.respond r).loc = Config.freeLocal s.free := rfl
@[simp] theorem State.respond_wait (r : Response) : (s.respond r).wait = s.wait := rfl
@[simp] theorem State.respond_wasReset (r : Response) : (s.respond r).wasReset = s.wasReset := rfl
@[simp] theorem State.respond_free (r : Response) : (s.respond r).free = s.free := rfl
@[simp] theorem State.respond_inputs (r : Response) : (s.respond r).inputs = s.inputs := rfl
@[simp] theorem State.respond_offer (r : Response) : (s.respond r).offer = s.offer := rfl

@[simp] theorem State.release_phase : s.release.phase = .idle := rfl
@[simp] theorem State.release_cmd : s.release.cmd = s.cmd := rfl
@[simp] theorem State.release_rsp : s.release.rsp = Config.freeResponse s.free := rfl
@[simp] theorem State.release_loc : s.release.loc = s.loc := rfl
@[simp] theorem State.release_wait : s.release.wait = s.wait := rfl
@[simp] theorem State.release_wasReset : s.release.wasReset = s.wasReset := rfl
@[simp] theorem State.release_free : s.release.free = s.free := rfl
@[simp] theorem State.release_inputs : s.release.inputs = s.inputs := rfl
@[simp] theorem State.release_offer : s.release.offer = s.offer := rfl

@[simp] theorem State.place_phase (c : Command) : (s.place c).phase = .busy := rfl
@[simp] theorem State.place_cmd (c : Command) : (s.place c).cmd = c := rfl
@[simp] theorem State.place_rsp (c : Command) : (s.place c).rsp = s.rsp := rfl
@[simp] theorem State.place_wait (c : Command) : (s.place c).wait = 0 := rfl
@[simp] theorem State.place_wasReset (c : Command) : (s.place c).wasReset = true := rfl
@[simp] theorem State.place_free (c : Command) : (s.place c).free = s.free := rfl
@[simp] theorem State.place_offer (c : Command) : (s.place c).offer = none := rfl

@[simp] theorem State.powerUp_wasReset : (State.powerUp s).wasReset = false := rfl
@[simp] theorem State.powerUp_phase : (State.powerUp s).phase = s.phase := rfl
@[simp] theorem State.powerUp_cmd : (State.powerUp s).cmd = s.cmd := rfl
@[simp] theorem State.powerUp_rsp : (State.powerUp s).rsp = s.rsp := rfl
@[simp] theorem State.powerUp_loc : (State.powerUp s).loc = s.loc := rfl
@[simp] theorem State.powerUp_wait : (State.powerUp s).wait = s.wait := rfl
@[simp] theorem State.powerUp_free : (State.powerUp s).free = s.free := rfl
@[simp] theorem State.powerUp_inputs : (State.powerUp s).inputs = s.inputs := rfl
@[simp] theorem State.powerUp_offer : (State.powerUp s).offer = s.offer := rfl

end Sys2Proof.Machine
end

