-- ==== Sys2Proof/Laws/Edge.lean ====
section
/-! SUPPORT. What one rising edge can do, said once: every later proof about a step takes its cases from
`step_cases` and unfolds nothing (50_host_interface.md R143). -/

namespace Sys2Proof.Machine

/-- Every operation completes by forming its response (50_host_interface.md R143, R145). -/
theorem exec_eq (i : Instr) (s : State) : exec i s = .next (s.respond (responseOf i)) := by
  cases i <;> rfl

/-! When a command is accepted and a response taken. -/

theorem accepting_iff (s : State) :
    s.accepting = true ↔ s.pins.cmdValid = true ∧ s.phase = .idle ∧ s.pins.rst = false := by
  simp [State.accepting, State.outputs, and_assoc]

theorem taking_iff (s : State) :
    s.taking = true ↔ s.phase = .done ∧ s.pins.rspReady = true ∧ s.pins.rst = false := by
  simp [State.taking, State.outputs, and_assoc]

theorem accepting_false_of_phase {s : State} (h : s.phase ≠ .idle) : s.accepting = false := by
  rw [← Bool.not_eq_true, accepting_iff]
  exact fun e => h e.2.1

theorem taking_false_of_phase {s : State} (h : s.phase ≠ .done) : s.taking = false := by
  rw [← Bool.not_eq_true, taking_iff]
  exact fun e => h e.1

theorem accepting_false_of_rst {s : State} (h : s.pins.rst = true) : s.accepting = false := by
  simp [State.accepting, h]

theorem taking_false_of_rst {s : State} (h : s.pins.rst = true) : s.taking = false := by
  simp [State.taking, h]

/-! The edges, one lemma for each row of the transition table. -/

theorem step_reset {s : State} (h : s.pins.rst = true) : step s = .next s.tick.resetEdge := by
  simp [step, State.edge, h]

theorem step_neverReset {s : State} (hr : s.pins.rst = false) (h : s.wasReset = false) :
    step s = .refused .neverReset := by
  simp [step, State.edge, hr, h]

theorem step_broken {s : State} (hr : s.pins.rst = false) (hw : s.wasReset = true) (h : s.offerBroken = true) :
    step s = .refused .unstableCommand := by
  simp [step, State.edge, hr, hw, h]

variable {s : State} (hr : s.pins.rst = false) (hw : s.wasReset = true) (hb : s.offerBroken = false)
include hr hw hb

theorem step_accept {i : Instr} (ha : s.accepting = true) (hd : decodeCommand s.pins.command = .ok i) :
    step s = .next (s.tick.capture s.pins.command i) := by
  simp [step, State.edge, hr, hw, hb, ((accepting_iff s).mp ha).2.1, State.idleEdge, ha, State.accept, hd]

theorem step_accept_reserved {e : DecodeError} (ha : s.accepting = true)
    (hd : decodeCommand s.pins.command = .error e) : step s = .refused .reservedOpcode := by
  simp [step, State.edge, hr, hw, hb, ((accepting_iff s).mp ha).2.1, State.idleEdge, ha, State.accept, hd]

theorem step_idle (hp : s.phase = .idle) (ha : s.accepting = false) : step s = .next s.tick := by
  simp [step, State.edge, hr, hw, hb, hp, State.idleEdge, ha]

theorem step_complete {i : Instr} (hp : s.phase = .busy) (h0 : s.wait = 0) (hd : decodeCommand s.cmd = .ok i) :
    step s = exec i s.tick := by
  simp [step, State.edge, hr, hw, hb, hp, State.busyEdge, h0, hd]

theorem step_complete_reserved {e : DecodeError} (hp : s.phase = .busy) (h0 : s.wait = 0)
    (hd : decodeCommand s.cmd = .error e) : step s = .refused .reservedOpcode := by
  simp [step, State.edge, hr, hw, hb, hp, State.busyEdge, h0, hd]

theorem step_wait (hp : s.phase = .busy) (h0 : s.wait ≠ 0) : step s = .next s.tick.advance := by
  simp [step, State.edge, hr, hw, hb, hp, State.busyEdge, h0]

theorem step_take (ht : s.taking = true) : step s = .next s.tick.release := by
  simp [step, State.edge, hr, hw, hb, ((taking_iff s).mp ht).1, State.doneEdge, ht]

theorem step_hold (hp : s.phase = .done) (ht : s.taking = false) : step s = .next s.tick := by
  simp [step, State.edge, hr, hw, hb, hp, State.doneEdge, ht]

omit hr hw hb in
/-- A step that answers a next state took one of the rows of 50_host_interface.md R143, or was a reset. -/
theorem step_cases {t : State} (h : step s = .next t) :
    (s.pins.rst = true ∧ t = s.tick.resetEdge) ∨
    (s.pins.rst = false ∧ s.wasReset = true ∧ s.offerBroken = false ∧
      ((s.accepting = true ∧ ∃ i, decodeCommand s.pins.command = .ok i ∧
          t = s.tick.capture s.pins.command i) ∨
       (s.phase = .idle ∧ s.accepting = false ∧ t = s.tick) ∨
       (s.phase = .busy ∧ s.wait = 0 ∧ ∃ i, decodeCommand s.cmd = .ok i ∧
          t = s.tick.respond (responseOf i)) ∨
       (s.phase = .busy ∧ s.wait ≠ 0 ∧ t = s.tick.advance) ∨
       (s.taking = true ∧ t = s.tick.release) ∨
       (s.phase = .done ∧ s.taking = false ∧ t = s.tick))) := by
  cases hr : s.pins.rst with
  | true =>
    rw [step_reset hr] at h
    exact .inl ⟨rfl, (Host.Outcome.next.inj h).symm⟩
  | false =>
    refine .inr ⟨rfl, ?_⟩
    cases hw : s.wasReset with
    | false => rw [step_neverReset hr hw] at h; cases h
    | true =>
      refine ⟨rfl, ?_⟩
      cases hb : s.offerBroken with
      | true => rw [step_broken hr hw hb] at h; cases h
      | false =>
        refine ⟨rfl, ?_⟩
        cases hp : s.phase with
        | idle =>
          cases ha : s.accepting with
          | false =>
            rw [step_idle hr hw hb hp ha] at h
            exact .inr (.inl ⟨rfl, rfl, (Host.Outcome.next.inj h).symm⟩)
          | true =>
            cases hd : decodeCommand s.pins.command with
            | error e => rw [step_accept_reserved hr hw hb ha hd] at h; cases h
            | ok i =>
              rw [step_accept hr hw hb ha hd] at h
              exact .inl ⟨rfl, i, rfl, (Host.Outcome.next.inj h).symm⟩
        | busy =>
          by_cases h0 : s.wait = 0
          · cases hd : decodeCommand s.cmd with
            | error e => rw [step_complete_reserved hr hw hb hp h0 hd] at h; cases h
            | ok i =>
              rw [step_complete hr hw hb hp h0 hd, exec_eq] at h
              exact .inr (.inr (.inl ⟨rfl, h0, i, rfl, (Host.Outcome.next.inj h).symm⟩))
          · rw [step_wait hr hw hb hp h0] at h
            exact .inr (.inr (.inr (.inl ⟨rfl, h0, (Host.Outcome.next.inj h).symm⟩)))
        | done =>
          cases ht : s.taking with
          | true =>
            rw [step_take hr hw hb ht] at h
            exact .inr (.inr (.inr (.inr (.inl ⟨rfl, (Host.Outcome.next.inj h).symm⟩))))
          | false =>
            rw [step_hold hr hw hb hp ht] at h
            exact .inr (.inr (.inr (.inr (.inr ⟨rfl, rfl, (Host.Outcome.next.inj h).symm⟩))))

end Sys2Proof.Machine
end

