-- ==== Sys2Proof/Laws/FastDoubling.lean ====
section
/-! SUPPORT. The fast-doubling loop in the ring of residues modulo 2^768: one iteration takes the pair of an
index `k` to the pair of `2k + bit` (41_fast_doubling_fib.md R103, R105). -/

namespace Sys2Proof.Machine

/-- The pair (F(k), F(k+1)), reduced modulo 2^768 (41_fast_doubling_fib.md R105). -/
def fibPairOf (k : Nat) : FibPair := { a := fwu (Nat.fib k), b := fwu (Nat.fib (k + 1)) }

theorem fwu_toNat (x : Nat) : (fwu x).toNat = x % 2 ^ 768 := BitVec.toNat_ofNat _ _

theorem fwu_add (x y : Nat) : fwu (x + y) = fwu x + fwu y := by simp [fwu, BitVec.ofNat_add]

theorem fwu_mul (x y : Nat) : fwu (x * y) = fwu x * fwu y := by simp [fwu, BitVec.ofNat_mul]

theorem fwu_sub {x y : Nat} (h : y ≤ x) : fwu (x - y) = fwu x - fwu y := by
  rw [eq_sub_iff_add_eq, ← fwu_add, Nat.sub_add_cancel h]

theorem fib_le_two_mul_succ (k : Nat) : Nat.fib k ≤ 2 * Nat.fib (k + 1) :=
  (Nat.fib_le_fib_succ).trans (Nat.le_mul_of_pos_left _ two_pos)

/-- F(2k) by the unit operations. -/
theorem fib_even_eq (k : Nat) : mul (fwu (Nat.fib k)) (sub (add (fwu (Nat.fib (k + 1))) (fwu (Nat.fib (k + 1))))
    (fwu (Nat.fib k))) = fwu (Nat.fib (2 * k)) := by
  rw [Nat.fib_two_mul, fwu_mul, fwu_sub (fib_le_two_mul_succ k), two_mul, fwu_add, mul_eq, sub_eq, add_eq]

/-- F(2k+1) by the unit operations. -/
theorem fib_odd_eq (k : Nat) : add (mul (fwu (Nat.fib k)) (fwu (Nat.fib k)))
    (mul (fwu (Nat.fib (k + 1))) (fwu (Nat.fib (k + 1)))) = fwu (Nat.fib (2 * k + 1)) := by
  rw [Nat.fib_two_mul_add_one, pow_two, pow_two, fwu_add, fwu_mul, fwu_mul, add_eq, mul_eq, mul_eq, add_comm]

/-- The intermediates of an iteration from the pair of `k` (41_fast_doubling_fib.md R104). -/
theorem fibTemps_pairOf (k : Nat) (bit : Bool) (e : Fwu) :
    (fibTemps (fibPairOf k) bit e).c = fwu (Nat.fib (2 * k)) ∧
      (fibTemps (fibPairOf k) bit e).d = fwu (Nat.fib (2 * k + 1)) ∧
      (fibTemps (fibPairOf k) bit e).e = if bit then fwu (Nat.fib (2 * k + 2)) else e := by
  refine ⟨fib_even_eq k, fib_odd_eq k, ?_⟩
  simp only [fibTemps, fibPairOf, fib_even_eq, fib_odd_eq]
  split
  · rw [add_eq, ← fwu_add, ← Nat.fib_add_two]
  · rfl

/-- One iteration, whatever `e` held before it. -/
theorem fibNext_pairOf (k : Nat) (bit : Bool) (e : Fwu) :
    fibNext (fibTemps (fibPairOf k) bit e) bit = fibPairOf (2 * k + bit.toNat) := by
  obtain ⟨hc, hd, he⟩ := fibTemps_pairOf k bit e
  cases bit
  · rw [fibNext, if_neg (by simp), hc, hd]; rfl
  · rw [fibNext, if_pos rfl, hd, he, if_pos rfl]; rfl

/-- The bits of `n` from bit `i` up, one bit more. -/
theorem shift_bit (n : Scalar) (i : Nat) :
    n.toNat / 2 ^ i = 2 * (n.toNat / 2 ^ (i + 1)) + (n.getLsbD i).toNat := by
  have h := Nat.div_add_mod (n.toNat / 2 ^ i) 2
  rw [Nat.div_div_eq_div_mul, ← pow_succ] at h
  rw [← h]
  congr 1
  rw [BitVec.getLsbD, Nat.testBit_eq_decide_div_mod_eq]
  rcases Nat.mod_two_eq_zero_or_one (n.toNat / 2 ^ i) with h | h <;> simp [h]

/-- One iteration at bit `i` from the pair of the bits above it. -/
theorem fibIter_pairOf (n : Scalar) (i : Nat) :
    fibIter n i (fibPairOf (n.toNat / 2 ^ (i + 1))) = fibPairOf (n.toNat / 2 ^ i) := by
  rw [fibIter, fibNext_pairOf, ← shift_bit]

theorem fibStart_eq : fibStart = fibPairOf 1 := by
  have h : fromSmallInteger 1 = fwu 1 := BitVec.eq_of_toNat_eq (by
    rw [fromSmallInteger_toNat, fwu_toNat, Nat.mod_eq_of_lt (Nat.one_lt_two_pow (by norm_num))]; rfl)
  rw [fibStart, h]; rfl

theorem shift_msb {n : Scalar} (h : n ≠ 0) : n.toNat / 2 ^ msb n = 1 := by
  have h0 : n.toNat ≠ 0 := fun e => h (BitVec.eq_of_toNat_eq e)
  have h1 : 2 ^ msb n ≤ n.toNat := Nat.log2_self_le h0
  have h2 : n.toNat < 2 ^ (msb n + 1) := Nat.lt_log2_self
  rw [Nat.div_eq_of_lt_le] <;> rw [pow_succ] at * <;> omega

/-- The loop from the pair of the bits at and above bit `m` ends at the pair of `n`. -/
theorem fibLoop_eq (n : Scalar) (m : Nat) :
    forDown (fibIter n) m (fibPairOf (n.toNat / 2 ^ m)) = fibPairOf n.toNat := by
  have h := forDown_induct (fun m w => w = fibPairOf (n.toNat / 2 ^ m)) (fibIter n) m _ rfl
    (by rintro i x _ rfl; exact fibIter_pairOf n i)
  simpa using h

end Sys2Proof.Machine
end

