-- ==== Sys2Proof/Laws/LoopValues.lean ====
section
/-! SUPPORT. What LOCAL is worth at each point of its loop: true when the operation is accepted, and kept by every
loop iteration (40_bigint_arithmetic.md R71, R74, R83; 41_fast_doubling_fib.md R105;
42_decimal_formatter.md R127). -/

namespace Sys2Proof.Machine

/-- LOCAL as it is initialised is worth the empty part of its loop (50_host_interface.md R143). -/
theorem loopValues_start (i : Instr) (f : Nat) : loopValues i (localStart i f) := by
  cases i with
  | add a b => exact ⟨Nat.zero_le _, by simp [val, addStart], by simp [val, addStart, Nat.mod_one]⟩
  | sub a b => exact ⟨Nat.zero_le _, by simp [val, subStart], by simp [val, subStart, Nat.mod_one]⟩
  | shlw a k => trivial
  | mul a b => exact ⟨.inl ⟨by norm_num, by norm_num⟩, by simp [val, Nat.mod_one]⟩
  | fib n =>
    refine ⟨rfl, le_rfl, fun hn => ?_⟩
    rw [fibStart_eq, shift_msb hn]
    exact ⟨fwu_toNat _, fwu_toNat _⟩
  | dec v =>
    obtain ⟨h₁, h₂⟩ := scanned_start (lt_scanBits v)
    exact ⟨le_rfl, List.all_eq_true.mpr h₁, h₂⟩
  | seed k => trivial

/-- The accumulated product after the pair `(i, j)`, where the pairs before it have been accumulated
(40_bigint_arithmetic.md R83). -/
theorem mulPair_loopValues (a b : Fwu) {i j : Nat} (hi : i < 24) (hj : j < 24 - i) {acc : Fwu}
    (h : acc.toNat = (a.toNat % 2 ^ (32 * i) * b.toNat
      + (wordAt a i).toNat * 2 ^ (32 * i) * (b.toNat % 2 ^ (32 * j))) % 2 ^ 768) (t : MulTemps) :
    loopValues (.mul a b) (.mul (nextPair i j).1 (nextPair i j).2 (mulPair a b i j acc) t) := by
  have hm : (mulPair a b i j acc).toNat = (a.toNat % 2 ^ (32 * i) * b.toNat
      + (wordAt a i).toNat * 2 ^ (32 * i) * (b.toNat % 2 ^ (32 * (j + 1)))) % 2 ^ 768 := by
    rw [mulPair_toNat, h, Nat.mod_add_mod, mod_pow_succ_word b j]
    congr 1
    ring
  unfold nextPair
  split
  · exact ⟨.inl ⟨hi, show j + 1 < 24 - i by omega⟩, hm⟩
  · have hlast : j + 1 = 24 - i := by omega
    have hrow : (mulPair a b i j acc).toNat = (a.toNat % 2 ^ (32 * (i + 1)) * b.toNat
        + (wordAt a (i + 1)).toNat * 2 ^ (32 * (i + 1)) * (b.toNat % 2 ^ (32 * 0))) % 2 ^ 768 := by
      rw [hm, hlast, Nat.add_mod, row_mod _ (by omega), ← Nat.add_mod, mod_pow_succ_word a i]
      simp only [Nat.mul_zero, pow_zero, Nat.mod_one, Nat.add_zero, add_mul]
    exact ⟨show i + 1 < 24 ∧ 0 < 24 - (i + 1) ∨ i + 1 = 24 ∧ 0 = 0 by omega, hrow⟩

/-- What the decoder reads of each operation (30_encoding.md R48, R49). -/
theorem decode_reads {c : Command} {i : Instr} (h : decodeCommand c = .ok i) :
    match i with
    | .add a b  => a = c.a ∧ b = c.b
    | .sub a b  => a = c.a ∧ b = c.b
    | .shlw a k => a = c.a ∧ k = c.k
    | .mul a b  => a = c.a ∧ b = c.b
    | .fib k    => k = c.k
    | .dec a    => a = c.a
    | .seed k   => k = c.k := by
  unfold decodeCommand at h
  split at h <;> cases h <;> simp

/-- Every loop iteration keeps LOCAL worth the part of the loop already processed. -/
theorem localStep_loopValues {c : Command} {i : Instr} (hd : decodeCommand c = .ok i) {l : Local}
    (h : loopValues i l) : loopValues i (localStep c l) := by
  have hr := decode_reads hd
  cases l with
  | none => exact h
  | add n w =>
    cases i with
    | add a b =>
      obtain ⟨rfl, rfl⟩ := hr
      rw [localStep]
      split
      · obtain ⟨h₁, h₂⟩ := addWord_invariant c.a c.b ‹_› h.2.1 h.2.2
        exact ⟨by omega, h₁, h₂⟩
      · exact h
    | _ => exact False.elim h
  | sub n w =>
    cases i with
    | sub a b =>
      obtain ⟨rfl, rfl⟩ := hr
      rw [localStep]
      split
      · obtain ⟨h₁, h₂⟩ := subWord_invariant c.a c.b ‹_› h.2.1 h.2.2
        exact ⟨by omega, h₁, h₂⟩
      · exact h
    | _ => exact False.elim h
  | mul r j acc t =>
    cases i with
    | mul a b =>
      obtain ⟨rfl, rfl⟩ := hr
      rw [localStep]
      split
      · exact mulPair_loopValues c.a c.b ‹_› (by have := h.1; omega) h.2 _
      · exact h
    | _ => exact False.elim h
  | fib n left w t =>
    cases i with
    | fib k =>
      obtain ⟨rfl, hl, hv⟩ := h
      cases left with
      | zero => exact ⟨rfl, hl, hv⟩
      | succ m =>
        refine ⟨rfl, by omega, fun hn => ?_⟩
        obtain ⟨ha, hb⟩ := hv hn
        have hw : w = fibPairOf (n.toNat / 2 ^ (m + 1)) := by
          cases w
          exact congrArg₂ FibPair.mk (BitVec.eq_of_toNat_eq (ha.trans (fwu_toNat _).symm))
            (BitVec.eq_of_toNat_eq (hb.trans (fwu_toNat _).symm))
        rw [hw, fibNext_pairOf, ← shift_bit]
        exact ⟨fwu_toNat _, fwu_toNat _⟩
    | _ => exact False.elim h
  | dec left w =>
    cases i with
    | dec v =>
      have hr : v = c.a := hr
      subst hr
      cases left with
      | zero => exact h
      | succ m =>
        obtain ⟨hl, hd, hv⟩ := h
        obtain ⟨h₁, h₂⟩ := (show Scanned c.a (m + 1) w from ⟨List.all_eq_true.mp hd, hv⟩).decBit.1
        exact ⟨by omega, List.all_eq_true.mpr h₁, h₂⟩
    | _ => exact False.elim h

end Sys2Proof.Machine
end

