-- ==== Sys2Proof/Laws/PerInstr.lean ====
section
/-! SUPPORT. The fields of each operation, one lemma per constructor: its number is legal, its command carries
that number and 0 in the fields its format ignores, and decodes to the operation itself
(30_encoding.md R48, R49, R50). -/

namespace Sys2Proof.Laws.Fields

/-- Which fields of a command a format leaves unread, all of them 0 (30_encoding.md R49). -/
def Unread (f : Format) (c : Command) : Prop :=
  match f with
  | .vv => c.k = 0
  | .vk => c.b = 0
  | .k  => c.a = 0 ∧ c.b = 0
  | .v  => c.b = 0 ∧ c.k = 0

/-- The command of an operation carries its number and its operands and nothing else. -/
def Statement (i : Instr) : Prop :=
  i.wellFormed = true ∧ (commandOf i).op = i.opcode ∧ Unread i.format (commandOf i) ∧
    decodeCommand (commandOf i) = .ok i

theorem add (a b : Fwu) : Statement (.add a b) := ⟨rfl, rfl, rfl, rfl⟩

theorem sub (a b : Fwu) : Statement (.sub a b) := ⟨rfl, rfl, rfl, rfl⟩

theorem shlw (a : Fwu) (k : Scalar) : Statement (.shlw a k) := ⟨rfl, rfl, rfl, rfl⟩

theorem mul (a b : Fwu) : Statement (.mul a b) := ⟨rfl, rfl, rfl, rfl⟩

theorem fib (k : Scalar) : Statement (.fib k) := ⟨rfl, rfl, ⟨rfl, rfl⟩, rfl⟩

theorem dec (a : Fwu) : Statement (.dec a) := ⟨rfl, rfl, ⟨rfl, rfl⟩, rfl⟩

theorem seed (k : Scalar) : Statement (.seed k) := ⟨rfl, rfl, ⟨rfl, rfl⟩, rfl⟩

end Sys2Proof.Laws.Fields
end

