-- ==== Sys2Proof/Laws/Products.lean ====
section
/-! SUPPORT. MUL as a sum of partial products, in whatever order (40_bigint_arithmetic.md R82, R83). -/

namespace Sys2Proof.Machine

/-- Accumulating partial products is summing them. -/
theorem accumulate_eq (a b : Fwu) (l : List (Nat × Nat)) :
    accumulate a b l = (l.map fun p => partialProduct a b p.1 p.2).sum := by
  unfold accumulate
  have h : ∀ acc : Fwu, l.foldl (fun acc p => add acc (partialProduct a b p.1 p.2)) acc
      = acc + (l.map fun p => partialProduct a b p.1 p.2).sum := by
    induction l with
    | nil => simp
    | cons p l ih => intro acc; rw [List.foldl_cons, ih, List.map_cons, List.sum_cons, add_eq, add_assoc]
  exact (h 0).trans (by rw [zero_add])

/-- The first `n` rows of MUL are the sum of their partial products (40_bigint_arithmetic.md R82). -/
theorem rows_eq (a b : Fwu) {n : Nat} (hn : n ≤ 24) :
    forUp (fun r acc => mulRow a b r (24 - r) acc) 0 n = (((List.range n).flatMap fun i =>
      (List.range (24 - i)).map fun j => (i, j)).map fun p => partialProduct a b p.1 p.2).sum := by
  induction n with
  | zero => rfl
  | succ n ih =>
    rw [forUp_succ, ih (by omega), List.range_succ, List.flatMap_append, List.map_append, List.sum_append]
    have : ∀ m acc, mulRow a b n m acc
        = acc + (((List.range m).map fun j => (n,j)).map fun p => partialProduct a b p.1 p.2).sum := by
      intro m acc
      induction m with
      | zero => simp [mulRow, forUp_zero]
      | succ m ihm =>
        rw [mulRow, forUp_succ]
        show mulPair a b n m (mulRow a b n m acc) = _
        rw [ihm, mulPair, add_eq, List.range_succ]; simp [add_assoc]
    rw [this]; simp

end Sys2Proof.Machine
end

