-- ==== Sys2Proof/Laws/Runs.lean ====
section
/-! SUPPORT. Offers and runs (70_reset_and_hazards.md R186). -/

namespace Sys2Proof.Machine

/-- A host that only keeps its offer standing breaks nothing (70_reset_and_hazards.md R186; log entry 6). -/
theorem keeps_standing (o : Option Command) :
    (standing o).rst = false ∧ (standing o).keeps o = true ∧ (standing o).offered = o := by
  cases o with
  | none => exact ⟨rfl, rfl, rfl⟩
  | some c =>
    refine ⟨rfl, ?_, rfl⟩
    show (true && sameOffer c c) = true
    rw [Bool.true_and, sameOffer]
    split
    · rename_i h1 h2; rw [h1] at h2; cases h2; simp
    · simp

/-- Two commands are the same offer exactly where they decode to the same operation, or are equal and both
reserved (70_reset_and_hazards.md R186). -/
theorem sameOffer_iff (c d : Command) :
    sameOffer c d = true ↔ (∃ i, decodeCommand c = .ok i ∧ decodeCommand d = .ok i) ∨
      ((∀ i, decodeCommand c = .ok i → ∀ j, decodeCommand d ≠ .ok j) ∧ c = d) := by
  unfold sameOffer
  split
  · rename_i i j h1 h2; simp [h1, h2]; exact eq_comm
  · rename_i h
    simp only [beq_iff_eq]
    constructor
    · intro e; exact .inr ⟨fun i h1 j h2 => h i j h1 h2, e⟩
    · rintro (⟨i, h1, h2⟩ | ⟨_, e⟩)
      · exact (h i i h1 h2).elim
      · exact e

/-- The number of the operation a command decodes to (30_encoding.md R48). -/
theorem decode_op {c : Command} {i : Instr} (h : decodeCommand c = .ok i) : i.opcode = c.op := by
  obtain ⟨op, a, b, k⟩ := c
  unfold decodeCommand at h
  revert h
  rcases (by decide : ∀ op : Opcode, op = 0 ∨ op = 1 ∨ op = 2 ∨ op = 3 ∨ op = 4 ∨ op = 5 ∨
    op = 6 ∨ op = 7) op with rfl | rfl | rfl | rfl | rfl | rfl | rfl | rfl <;> intro h <;> cases h <;> rfl

/-- A run goes on from the next state. -/
theorem run_of_next {M : Host.Core} {k : Nat} {s t : M.State} (h : M.step s = .next t) :
    M.run (k + 1) s = M.run k t := by
  simp only [Host.Core.run, h]

end Sys2Proof.Machine
end

