-- ==== Sys2Proof/Laws/Scan.lean ====
section
/-! SUPPORT. The scan of DEC, cursor by cursor: from the highest nonzero word down, in each word from bit 31 down
(42_decimal_formatter.md R123). -/

namespace Sys2Proof.Machine

/-- The cursors of one word more: that word first, then the words below it. -/
theorem scanCursors_succ (n : Nat) :
    scanCursors (n + 1) = ((List.range 32).reverse.map fun bi => (n, bi)) ++ scanCursors n := by
  simp [scanCursors, List.range_succ (n := n)]

theorem scanCursors_length (n : Nat) : (scanCursors n).length = 32 * n := by
  induction n with
  | zero => rfl
  | succ n ih => rw [scanCursors_succ, List.length_append, ih]; simp; ring

/-- The words in use are those up to the highest nonzero one. -/
theorem usedWords_of_highest {v : Fwu} {hw n : Nat} (hlt : hw < n) (hne : wordAt v hw ≠ 0)
    (hz : ∀ i, hw < i → i < n → wordAt v i = 0) : usedWords v n = hw + 1 := by
  induction n with
  | zero => omega
  | succ n ih =>
    unfold usedWords
    rcases Nat.lt_succ_iff_lt_or_eq.mp hlt with h | rfl
    · rw [if_pos (hz n h (by omega))]
      exact ih h fun i h₁ h₂ => hz i h₁ (by omega)
    · rw [if_neg hne]

/-- A row of the descending loop is the cursors of one word. -/
theorem forDown_row (v : Fwu) {n k : Nat} (hk : k ≤ 32) (D : Buffer) :
    forDown (fun m D => addBit (double D) (scannedBit v m)) (32 * n + k) D =
      forDown (fun m D => addBit (double D) (scannedBit v m)) (32 * n)
        (((List.range k).reverse.map fun bi => (n, bi)).foldl
          (fun D c => addBit (double D) ((wordAt v c.1).extractLsb' c.2 1)) D) := by
  induction k generalizing D with
  | zero => rfl
  | succ k ih =>
    have hb : scannedBit v (32 * n + k) = (wordAt v n).extractLsb' k 1 := by
      rw [scannedBit, show (32 * n + k) / 32 = n by omega, show (32 * n + k) % 32 = k by omega]
    rw [← Nat.add_assoc, forDown_succ, ih (by omega), List.range_succ, hb]
    simp

/-- The descending loop over the bits of `n` words visits the cursors in scan order. -/
theorem forDown_scan (v : Fwu) (n : Nat) (D : Buffer) :
    forDown (fun m D => addBit (double D) (scannedBit v m)) (32 * n) D =
      (scanCursors n).foldl (fun D c => addBit (double D) ((wordAt v c.1).extractLsb' c.2 1)) D := by
  induction n generalizing D with
  | zero => rfl
  | succ n ih => rw [Nat.mul_succ, forDown_row v le_rfl, ih, scanCursors_succ, List.foldl_append]

end Sys2Proof.Machine
end

