-- ==== Sys2Proof/Laws/Working.lean ====
section
/-! SUPPORT. Where the loop of each operation leaves LOCAL: the loop bodies advance LOCAL as the operations of
40_bigint_arithmetic.md, 41_fast_doubling_fib.md and 42_decimal_formatter.md say. -/

namespace Sys2Proof.Machine

/-- ADD after `n` loop iterations (10_state.md R18; 40_bigint_arithmetic.md R70). -/
theorem iter_add (c : Command) {n : Nat} (hn : n ≤ 24) :
    (localStep c)^[n] (.add 0 addStart) = .add n (addLoop c.a c.b n) := by
  induction n with
  | zero => rfl
  | succ n ih =>
    rw [Function.iterate_succ_apply', ih (by omega), localStep, if_pos (by omega)]; rfl

/-- SUB after `n` loop iterations (10_state.md R18; 40_bigint_arithmetic.md R73). -/
theorem iter_sub (c : Command) {n : Nat} (hn : n ≤ 24) :
    (localStep c)^[n] (.sub 0 subStart) = .sub n (subLoop c.a c.b n) := by
  induction n with
  | zero => rfl
  | succ n ih =>
    rw [Function.iterate_succ_apply', ih (by omega), localStep, if_pos (by omega)]; rfl

/-- DEC after its scan (10_state.md R20; 42_decimal_formatter.md R122). -/
theorem iter_dec (c : Command) (n : Nat) (w : DecWork) :
    (localStep c)^[n] (.dec n w) = .dec 0 (forDown (decBit c.a) n w) := by
  induction n generalizing w with
  | zero => rfl
  | succ n ih => rw [Function.iterate_succ_apply]; exact ih _

/-- The next pair does not depend on what `e` held before the iteration. -/
theorem fibNext_e (w : FibPair) (bit : Bool) (e e' : Fwu) :
    fibNext (fibTemps w bit e) bit = fibNext (fibTemps w bit e') bit := by
  cases bit <;> rfl

/-- FIB after its loop (10_state.md R19; 41_fast_doubling_fib.md R101). -/
theorem iter_fib (c : Command) (n : Scalar) (m : Nat) (w : FibPair) (t : FibTemps) :
    ∃ t', (localStep c)^[m] (.fib n m w t) = .fib n 0 (forDown (fibIter n) m w) t' := by
  induction m generalizing w t with
  | zero => exact ⟨t, rfl⟩
  | succ m ih =>
    rw [Function.iterate_succ_apply, localStep, fibNext_e w (n.getLsbD m) t.e 0]
    exact ih _ _

/-- The last pair of a row ends the row. -/
theorem mulLoop_row_end (a b : Fwu) {i j : Nat} (h : 24 - i = j + 1) :
    mulPair a b i j (mulLoop a b i j) = mulLoop a b (i + 1) 0 := by
  rw [mulLoop, mulLoop, mulRow, mulRow, forUp_zero, forUp_succ, mulRow, h, forUp_succ]

/-- How many pairs the rows below `i` have (40_bigint_arithmetic.md R84). -/
def pairsBelow (i : Nat) : Nat := ∑ r ∈ Finset.range i, (24 - r)

/-- MUL after `i` whole rows (10_state.md R18; 40_bigint_arithmetic.md R82). -/
theorem iter_mul (c : Command) {i : Nat} (hi : i ≤ 24) (t : MulTemps) :
    ∃ t', (localStep c)^[pairsBelow i] (.mul 0 0 0 t) = .mul i 0 (mulLoop c.a c.b i 0) t' := by
  induction i with
  | zero => exact ⟨t, rfl⟩
  | succ i ih =>
    obtain ⟨t1, h1⟩ := ih (by omega)
    rw [pairsBelow, Finset.sum_range_succ, Nat.add_comm, Function.iterate_add_apply]
    rw [show (∑ r ∈ Finset.range i, (24 - r)) = pairsBelow i from rfl, h1]
    have row : ∀ j, j ≤ 23 - i → ∃ t', (localStep c)^[j] (.mul i 0 (mulLoop c.a c.b i 0) t1)
        = .mul i j (mulLoop c.a c.b i j) t' := by
      intro j
      induction j with
      | zero => intro _; exact ⟨t1, rfl⟩
      | succ j ihj =>
        intro hj
        obtain ⟨t2, h2⟩ := ihj (by omega)
        rw [Function.iterate_succ_apply', h2, localStep, if_pos (by omega), nextPair, if_pos (by omega)]
        exact ⟨_, rfl⟩
    obtain ⟨t2, h2⟩ := row (23 - i) le_rfl
    obtain ⟨d, hd⟩ : ∃ d, 24 - i = d + 1 := ⟨23 - i, by omega⟩
    rw [hd, Function.iterate_succ_apply', show d = 23 - i by omega, h2, localStep, if_pos (by omega), nextPair,
      if_neg (by omega)]
    rw [mulLoop_row_end _ _ (by omega : 24 - i = (23 - i) + 1)]
    exact ⟨_, rfl⟩

end Sys2Proof.Machine
end

