-- ==== Sys2Proof/Tests/Slice0.lean ====
section
/-! SUPPORT. Small tests, their expected results from the spec's own vectors (95_test_vectors.md), and for each
statement with hypotheses a state that meets them. -/

namespace Sys2Proof.Tests

open Sys2Proof Sys2Proof.Machine

/-! WellFormed. -/

/-- The one check of a command: the reserved code 7 (30_encoding.md R52). -/
theorem test_reserved_command_is_ill_formed :
    Command.wellFormed (Command.mk 7 0 0 0) = false ∧ Command.wellFormed (Command.mk 6 5 5 5) = true := by decide +kernel

/-- The one check of an operation: its number; no constructor has the reserved one. -/
theorem test_every_operation_is_well_formed :
    [Instr.add 1 2, .sub 1 2, .shlw 1 2, .mul 1 2, .fib 1, .dec 1, .seed 1].all Instr.wellFormed = true := by decide +kernel

/-! Decoding, on words written out from 30_encoding.md R46. -/

/-- 95_test_vectors.md section 6, P1: `ADD 0x15, 0x22`. -/
theorem test_decode_add : decodeTableWord 1608 0x22000000000000000000000000000000000000000000000000000000000000000000000000000000000000000000000000000000000000000000000000000000000000000000000000000000000000000000000000000000000000000000000015 = some (.add 0x15 0x22) := by
  decide +kernel

/-- 95_test_vectors.md section 6, P2: `SUB 0x10, 0x5`. -/
theorem test_decode_sub :
    decodeTableWord 1608 (0b001 * 2 ^ 1600 + 0b101 * 2 ^ 768 + 0b10000) = some (.sub 0x10 0x5) := by decide +kernel

/-- 95_test_vectors.md section 6, P4: `SHLW m, 23` with every bit of `m` set. -/
theorem test_decode_shlw :
    decodeTableWord 1608 (0b010 * 2 ^ 1600 + 0b10111 * 2 ^ 1536 + (2 ^ 768 - 1)) = some (.shlw (fwu (2 ^ 768 - 1)) 23) := by
  decide +kernel

/-- 95_test_vectors.md section 6, P2: `MUL 0x5, 0xB`. -/
theorem test_decode_mul :
    decodeTableWord 1608 (0b011 * 2 ^ 1600 + 0b1011 * 2 ^ 768 + 0b101) = some (.mul 0x5 0xB) := by decide +kernel

/-- 95_test_vectors.md section 6, P3: `FIB 100`. -/
theorem test_decode_fib : decodeTableWord 1608
    0x40000000000000064000000000000000000000000000000000000000000000000000000000000000000000000000000000000000000000000000000000000000000000000000000000000000000000000000000000000000000000000000000000000000000000000000000000000000000000000000000000000000000000000000000000000000000000000000000000000000000000000000000000000000000000000000000000000000000000000000000000000000000000000000000000000000000000000
    = some (.fib 100) := by decide +kernel

/-- 95_test_vectors.md section 6, P3: `DEC v`. -/
theorem test_decode_dec : decodeTableWord 1608
    0x500000000000000000000000000000000000000000000000000000000000000000000000000000000000000000000000000000000000000000000000000000000000000000000000000000000000000000000000000000000000000000000000000000000000000000000000000000000000000000000000000000000000000000000000000000000000000000000000000000000000000000000000000000000000000000000000000000000000000000000000000000000000000000000001333DB76A7C594BFC3
    = some (.dec 0x1333DB76A7C594BFC3) := by decide +kernel

/-- 95_test_vectors.md section 6, P1: `SEED 1`. -/
theorem test_decode_seed : decodeTableWord 1608
    0x60000000000000001000000000000000000000000000000000000000000000000000000000000000000000000000000000000000000000000000000000000000000000000000000000000000000000000000000000000000000000000000000000000000000000000000000000000000000000000000000000000000000000000000000000000000000000000000000000000000000000000000000000000000000000000000000000000000000000000000000000000000000000000000000000000000000000000
    = some (.seed 1) := by decide +kernel

/-- The reserved code with every other bit set, and a bit above the vector: each refused by its own name
(30_encoding.md R46, R52). -/
theorem test_decode_refuses :
    decodeNat (2 ^ 1603 - 1) = .error .reservedOpcode ∧ decodeNat (2 ^ 1603) = .error .notACommandVector := by
  decide +kernel

/-- 95_test_vectors.md section 6, P3: the packed response to `DEC v`, and the first character of its text. -/
theorem test_packed_response : packResponse (stringResponse 21 (Vector.ofFn fun q =>
      ([0x33, 0x35, 0x34, 0x32, 0x32, 0x34, 0x38, 0x34, 0x38, 0x31, 0x37, 0x39, 0x32, 0x36, 0x31, 0x39, 0x31, 0x35,
        0x30, 0x37, 0x35] : List Byte).getD q 0))
    = 0x11500000000000000000000000000000000000000000000000000000000000000000000000000000000000000000000000000000000000000000000000000000000000000000000000000000000000000000000000000000000000000000000000000000000000000000000000000000000000000000000000000000000000000000000000000000000000000000000000000000000000000000000000000000000000000000000000000000000000000000000000000000000000000000000000000000000000000000000000000000000000000353730353139313632393731383438343232343533000000000000000000000000000000000000000000000000000000000000000000000000000000000000000000000000000000000000000000000000000000000000000000000000000000000000000000000000000000000000000000000000 := by
  decide +kernel

/-! Values. -/

/-- 95_test_vectors.md section 2, S5. -/
theorem test_seed : fromSmallInteger 0x100000002 = fwu (2 + 1 * 2 ^ 32) := by decide +kernel

/-- 95_test_vectors.md section 3.1, A3 and A6: the carry into word 1, and the one that is dropped. -/
theorem test_add_carries : add 0xFFFFFFFF 1 = fwu (2 ^ 32) ∧ add (fwu (2 ^ 768 - 1)) 1 = 0 := by decide +kernel

/-- 95_test_vectors.md section 3.2, B6 and B12: a borrow through 23 words, and a wrapped difference. -/
theorem test_sub_borrows : sub (fwu (2 ^ 736)) 1 = fwu (2 ^ 736 - 1) ∧ sub 5 0x100000005 = fwu (2 ^ 768 - 2 ^ 32) := by
  decide +kernel

/-- 95_test_vectors.md section 3.3, H4 and H6 to H8: words past the top are lost, and 24 or more gives zero. -/
theorem test_shift_past_the_top :
    shiftWords 0x30000000200000001 22 = fwu (2 ^ 704 + 2 * 2 ^ 736) ∧ shiftWords 0x30000000200000001 24 = 0 ∧
    shiftWords 0x30000000200000001 0xFFFFFFFFFFFFFFFF = 0 := by decide +kernel

/-- 95_test_vectors.md section 3.4, M5: two-word operands. -/
theorem test_mul_two_words :
    mul 0xFFFFFFFFFFFFFFFF 0xFFFFFFFFFFFFFFFF = 0xFFFFFFFFFFFFFFFE0000000000000001 := by decide +kernel

/-- 95_test_vectors.md section 3.4, M10: the high half of the pair (23, 0) is lost. -/
theorem test_mul_top_word : mul (fwu (0xFFFFFFFF * 2 ^ 736)) 0xFFFFFFFF = fwu (2 ^ 736) := by
  rw [mul_eq]
  decide +kernel

/-- 95_test_vectors.md section 4.2: every intermediate of the last iteration of `FIB 10`. -/
theorem test_fib_iteration :
    fibTemps (FibPair.mk 5 8) false 0 = FibTemps.mk 16 11 55 25 64 89 0 := by
  simp only [fibTemps, mul_eq, add_eq, sub_eq]
  decide +kernel

/-- 95_test_vectors.md section 1.1: `FIB 100`, the source's literal. -/
theorem test_fib_100 : val (fib 100) = 354224848179261915075 := by
  rw [fib, fibResult, if_neg (by decide), if_neg (by decide), fibStart_eq, ← shift_msb (n := 100) (by decide),
    fibLoop_eq]
  decide +kernel

/-- 95_test_vectors.md section 5, T5: the whole response to `DEC 0xD`. -/
theorem test_dec_13 :
    (toDecimal 13).kind = .string ∧ (toDecimal 13).val = 0 ∧ (toDecimal 13).len = 2 ∧
    (toDecimal 13).str.toList = [0x31, 0x33] ++ List.replicate 230 0 := by decide +kernel

/-- 95_test_vectors.md section 5, T1: zero is one digit. -/
theorem test_dec_zero :
    (toDecimal 0).len = 1 ∧ (toDecimal 0).str.toList = 0x30 :: List.replicate 231 0 := by decide +kernel

/-! Steps. -/

/-- The inputs of a host that does nothing. -/
def quiet : Pins := standing none

/-- The inputs of a host that offers a command. -/
def offering (c : Command) : Pins := standing (some c)

/-- The state after reset, with the inputs of the next cycle. -/
def facing (p : Pins) : State := { State.reset with inputs := [p] }

/-- A command in BUSY, with BUSY cycles still to pass. -/
def busyWith (c : Command) (w : Nat) : State := { State.reset.place c with wait := w }

/-- A response in DONE, with the inputs of the next cycle. -/
def doneWith (r : Response) (p : Pins) : State := { facing p with phase := .done, rsp := r }

/-- The command `ADD 2, 3` with the ignored field `k` set. -/
def addCommand : Command := { op := 0, a := 2, b := 3, k := 7 }

/-- The command with the reserved code. -/
def reservedCommand : Command := { op := 7, a := 0, b := 0, k := 0 }

/-- The vector of `ADD 2, 3` is fetched and run by the first step after reset (30_encoding.md R46;
50_host_interface.md R143, R145). -/
theorem test_first_step_runs_the_placed_word :
    step (State.reset.withFetchWord 1608 (3 * 2 ^ 768 + 2)) =
      exec (.add 2 3) (State.reset.withFetchWord 1608 (3 * 2 ^ 768 + 2)).tick := by
  have h : State.reset.withFetchWord 1608 (3 * 2 ^ 768 + 2) = State.reset.place (Command.mk 0 2 3 0) := by
    decide +kernel
  rw [h]
  exact step_complete rfl rfl rfl rfl rfl rfl

/-- The reserved code is refused, placed or accepted (30_encoding.md R52; 50_host_interface.md R143). -/
theorem test_step_refuses_the_reserved_code :
    step (State.reset.withFetchWord 1608 (7 * 2 ^ 1600)) = .refused .reservedOpcode ∧
    step (facing (offering reservedCommand)) = .refused .reservedOpcode := by
  have h : State.reset.withFetchWord 1608 (7 * 2 ^ 1600) = State.reset.place reservedCommand := by decide +kernel
  rw [h]
  exact ⟨step_complete_reserved rfl rfl rfl rfl rfl rfl, step_accept_reserved rfl rfl rfl rfl rfl⟩

/-- Reset wins over an offer in the same cycle (60_exceptions.md R163). -/
theorem test_reset_wins_over_an_offer :
    (facing { offering addCommand with rst := true }).accepting = false ∧
    ∃ t, step (facing { offering addCommand with rst := true }) = .next t ∧ t.phase = .idle := ⟨rfl, _, rfl, rfl⟩

/-- Before the first reset after power-up a cycle of `rst = 0` is refused, and one of `rst = 1` leads to IDLE,
whatever the content (70_reset_and_hazards.md R182; 93_implementation_defined.md U7). -/
theorem test_power_up_needs_a_reset :
    step (facing (offering addCommand)).powerUp = .refused .neverReset ∧
    ∃ t, step (busyWith addCommand 0).powerUp = .refused .neverReset ∧
      step (State.powerUp { busyWith addCommand 0 with inputs := [{ quiet with rst := true }] }) = .next t ∧
      t.phase = .idle ∧ t.wasReset = true := ⟨rfl, _, rfl, rfl, rfl, rfl⟩

/-- A taken response leaves IDLE, and no command is accepted in that cycle (60_exceptions.md R163). -/
theorem test_take_leaves_idle :
    (doneWith (valueResponse 5) { offering addCommand with rspReady := true }).accepting = false ∧
    ∃ t, step (doneWith (valueResponse 5) { offering addCommand with rspReady := true }) = .next t ∧
      t.phase = .idle ∧ t.offer = some addCommand := ⟨rfl, _, rfl, rfl, rfl⟩

/-! Witnesses: for each statement with hypotheses, what meets them, at the edges of its ranges. -/

/-- DecodeUndoesEncode, ResponseFormOfEachKind: every constructor. -/
theorem witness_well_formed (k : Scalar) (a b : Fwu) :
    (Instr.add a b).wellFormed = true ∧ (Instr.sub a b).wellFormed = true ∧ (Instr.shlw a k).wellFormed = true ∧
    (Instr.mul a b).wellFormed = true ∧ (Instr.fib k).wellFormed = true ∧ (Instr.dec a).wellFormed = true ∧
    (Instr.seed k).wellFormed = true := ⟨rfl, rfl, rfl, rfl, rfl, rfl, rfl⟩

/-- DecoderRejectsOnlyReservedOpcode: both clauses. -/
theorem witness_opcode_field :
    BitVec.extractLsb' 1600 3 (BitVec.ofNat 1603 (7 * 2 ^ 1600)) = 7 ∧
    BitVec.extractLsb' 1600 3 (BitVec.ofNat 1603 (6 * 2 ^ 1600)) ≠ 7 := by decide +kernel

/-- IgnoredFieldsChangeNothing: one command of each format, and a BUSY state with its latency over. -/
theorem witness_ignored_fields :
    decodeCommand (Command.mk 0 1 2 3) = .ok (.add 1 2) ∧ decodeCommand (Command.mk 2 1 2 3) = .ok (.shlw 1 3) ∧
    decodeCommand (Command.mk 6 1 2 3) = .ok (.seed 3) ∧ decodeCommand (Command.mk 5 1 2 3) = .ok (.dec 1) ∧
    (busyWith addCommand 0).phase = .busy ∧ (busyWith addCommand 0).wait = 0 := ⟨rfl, rfl, rfl, rfl, rfl, rfl⟩

/-- ShiftRespondsWithMovedWords, ShiftValueLawAndComposition, BoundaryCasesRespondWithValues: counts on both sides of
24. -/
theorem witness_shift_counts : ¬ 24 ≤ (23 : Scalar).toNat ∧ 24 ≤ (24 : Scalar).toNat := by decide +kernel

/-- SubValueLaw, BoundaryCasesRespondWithValues, ContractKeptMeansExactResults: minuends on both sides of the
subtrahend. -/
theorem witness_minuends : val 7 ≤ val 7 ∧ val 6 < val 7 ∧ withinContract (.sub 7 7) ∧ withinContract (.fib 1000) := by
  refine ⟨by decide +kernel, by decide +kernel, ?_, ?_⟩
  · show val 7 ≤ val 7
    exact le_rfl
  · show (1000 : Scalar).toNat ≤ 1000
    decide +kernel

/-- MulValueLaw: an order of the pairs other than the spec's, with a pair that is shifted out. -/
theorem witness_pairs :
    (∀ p ∈ [(12, 12)], 24 ≤ p.1 + p.2) ∧ (mulPairs ++ [(12, 12)]).reverse.Perm (mulPairs ++ [(12, 12)]) :=
  ⟨by decide, List.reverse_perm _⟩

/-- MsbIsHighestSetBit, FibLoopHoldsPairOfPrefix, FibExactUpTo1107, FibFirstBorrowsAt2212: indices at the edges. -/
theorem witness_indices :
    (1 : Scalar) ≠ 0 ∧ (1000 : Scalar) ≠ 0 ∧ 9 ≤ msb 1000 ∧ msb 1000 < 10 ∧ (1107 : Scalar).toNat ≤ 1107 ∧
    (2211 : Scalar).toNat < 2212 := by decide +kernel

/-- ScanVisitsTheBitsOfTheUsedWords: values whose highest nonzero word is word 0, word 1 below a word that is zero
too, and word 23; zero has none. -/
theorem witness_highest_words :
    (wordAt 13 0 ≠ 0 ∧ ∀ i, 0 < i → i < 24 → wordAt 13 i = 0) ∧
    (wordAt 0x100000000 1 ≠ 0 ∧ wordAt 0x100000000 0 = 0 ∧ ∀ i, 1 < i → i < 24 → wordAt 0x100000000 i = 0) ∧
    (wordAt (fwu (2 ^ 767)) 23 ≠ 0 ∧ ∀ i, 23 < i → i < 24 → wordAt (fwu (2 ^ 767)) i = 0) ∧
    (∀ i, i < 24 → wordAt 0 i = 0) := by
  refine ⟨⟨by decide +kernel, fun i h₁ h₂ => ?_⟩, ⟨by decide +kernel, by decide +kernel, fun i h₁ h₂ => ?_⟩,
    ⟨by decide +kernel, fun i h₁ h₂ => by omega⟩, fun i h => by simp [wordAt]⟩
  all_goals interval_cases i <;> decide +kernel

/-- 42_decimal_formatter.md R123: the first cursors of a scan of two words, the change of word, and the last. -/
theorem test_scan_order : (scanCursors 2).take 2 = [(1, 31), (1, 30)] ∧
    ((scanCursors 2).drop 31).take 2 = [(1, 0), (0, 31)] ∧ (scanCursors 2).drop 63 = [(0, 0)] := by decide +kernel

/-- DoubleCarriesDigitByDigit, AddBitCarriesDigitByDigit: the buffer before a scan, and the buffer of nines, in
which every position carries. -/
theorem witness_digits (p : Nat) (hp : p < 232) :
    isDigit decStart.D[p] = true ∧ isDigit (Vector.replicate 232 (ascii 9))[p] = true := by
  have h : decStart.D[p] = ascii 0 := by simp [decStart]
  rw [h, Vector.getElem_replicate]
  decide

/-- StripLeavesReadingOrder: a buffer that strips to one digit, and one that strips to two. -/
theorem witness_strip_lengths :
    stripLen decStart.D 232 = 1 ∧ stripLen (Vector.ofFn fun q => if q = 1 then 0x31 else 0x30) 232 = 2 := by
  decide +kernel

/-- DecBufferHoldsScannedPrefix: the ends of the scan of a one-word value. -/
theorem witness_scan_bits : scanBits 13 = 32 ∧ scanBits 0 = 0 ∧ scanBits (fwu (2 ^ 767)) = 768 := by decide +kernel

/-- CompletionFrame: every operation answers a next state. -/
theorem witness_exec (i : Instr) : ∃ t, exec i State.reset = .next t := ⟨_, exec_eq i _⟩

/-- EdgeFrame, NoOtherPhaseTransition: a next state for each row of the transition table, and for reset. -/
theorem witness_next_states :
    (∃ t, step (facing { quiet with rst := true }) = .next t) ∧
    (∃ t, step (facing (offering addCommand)) = .next t) ∧
    (∃ t, step (facing quiet) = .next t) ∧
    (∃ t, step (busyWith addCommand 0) = .next t) ∧
    (∃ t, step (busyWith addCommand 1) = .next t) ∧
    (∃ t, step (doneWith (valueResponse 5) { quiet with rspReady := true }) = .next t) ∧
    (∃ t, step (doneWith (valueResponse 5) quiet) = .next t) :=
  ⟨⟨_, rfl⟩, ⟨_, rfl⟩, ⟨_, rfl⟩, ⟨_, rfl⟩, ⟨_, rfl⟩, ⟨_, rfl⟩, ⟨_, rfl⟩⟩

/-- EdgeFrame: the three clauses that leave a register alone, in DONE with nothing taken and in BUSY with the latency
not over. -/
theorem witness_unwritten_registers :
    (∃ t, step (doneWith (valueResponse 5) quiet) = .next t) ∧
    (doneWith (valueResponse 5) quiet).pins.rst = false ∧ (doneWith (valueResponse 5) quiet).accepting = false ∧
    (doneWith (valueResponse 5) quiet).taking = false ∧ (doneWith (valueResponse 5) quiet).phase ≠ .busy ∧
    (∃ t, step (busyWith addCommand 1) = .next t) ∧
    (busyWith addCommand 1).pins.rst = false ∧ (busyWith addCommand 1).accepting = false ∧
    (busyWith addCommand 1).taking = false ∧
    ¬ ((busyWith addCommand 1).phase = .busy ∧ (busyWith addCommand 1).wait = 0) :=
  ⟨⟨_, rfl⟩, rfl, rfl, rfl, nofun, ⟨_, rfl⟩, rfl, rfl, rfl, by decide +kernel⟩

/-- ResetWinsFromAnyState: a reset cycle in each phase. -/
theorem witness_reset_cycles :
    (facing { quiet with rst := true }).pins.rst = true ∧
    { busyWith addCommand 0 with inputs := [{ quiet with rst := true }] }.pins.rst = true ∧
    (doneWith (valueResponse 5) { quiet with rst := true }).pins.rst = true := ⟨rfl, rfl, rfl⟩

/-- A cycle without reset, some time after one, in which the host keeps its offer: what every row of the transition
table assumes. -/
def calm (s : State) : Bool := !s.pins.rst && s.wasReset && !s.offerBroken

/-- TransitionTable: each row; BusyCyclesFollowLatency: each clause. -/
theorem witness_transition_rows :
    (calm (facing (offering addCommand)) = true ∧ (facing (offering addCommand)).accepting = true ∧
      decodeCommand (facing (offering addCommand)).pins.command = .ok (.add 2 3)) ∧
    (calm (facing (offering reservedCommand)) = true ∧ (facing (offering reservedCommand)).accepting = true ∧
      (facing (offering reservedCommand)).pins.cmdOp = 7) ∧
    (calm (facing quiet) = true ∧ (facing quiet).phase = .idle ∧ (facing quiet).accepting = false) ∧
    (calm (busyWith addCommand 0) = true ∧ (busyWith addCommand 0).phase = .busy ∧ (busyWith addCommand 0).wait = 0 ∧
      decodeCommand (busyWith addCommand 0).cmd = .ok (.add 2 3)) ∧
    (calm (busyWith addCommand 1) = true ∧ (busyWith addCommand 1).phase = .busy ∧ (busyWith addCommand 1).wait ≠ 0 ∧
      decodeCommand (busyWith addCommand 1).cmd = .ok (.add 2 3)) ∧
    (calm (doneWith (valueResponse 5) { quiet with rspReady := true }) = true ∧
      (doneWith (valueResponse 5) { quiet with rspReady := true }).taking = true) ∧
    (calm (doneWith (valueResponse 5) quiet) = true ∧ (doneWith (valueResponse 5) quiet).phase = .done ∧
      (doneWith (valueResponse 5) quiet).taking = false) := by decide +kernel

/-- ResponseHeldUntilTaken: a response offered and not taken. -/
theorem witness_held_response :
    (∃ t, step (doneWith (valueResponse 5) quiet) = .next t) ∧
    (doneWith (valueResponse 5) quiet).pins.rst = false ∧
    (doneWith (valueResponse 5) quiet).outputs.rspValid = true ∧
    (doneWith (valueResponse 5) quiet).taking = false := ⟨⟨_, rfl⟩, rfl, rfl, rfl⟩

/-- StepRunsDecodedOperation, ResponseDependsOnOperationAlone, WorkingStorageReachesTheResponse,
StepKeepsInvariant, EveryLoopIsBounded: a legal command in BUSY with its latency over, on its way, and one that
differs in an ignored field and in all else. -/
theorem witness_busy :
    (busyWith addCommand 0).pins.rst = false ∧ (busyWith addCommand 0).wasReset = true ∧
    (busyWith addCommand 0).offerBroken = false ∧
    (busyWith addCommand 0).phase = .busy ∧ (busyWith addCommand 0).wait = 0 ∧
    decodeCommand (busyWith addCommand 0).cmd = .ok (.add 2 3) ∧ (busyWith addCommand 0).Inv ∧
    ∃ t u, step (busyWith addCommand 0) = .next t ∧ t.phase = .done ∧
      (busyWith { addCommand with k := 0 } 0).phase = .busy ∧
      decodeCommand (busyWith { addCommand with k := 0 } 0).cmd = .ok (.add 2 3) ∧
      step { busyWith { addCommand with k := 0 } 0 with rsp := valueResponse 9, free := 4 } = .next u ∧
      u.phase = .done :=
  ⟨rfl, rfl, rfl, rfl, rfl, rfl, ⟨fun _ => ⟨.add 2 3, 0, 0, rfl, rfl⟩, nofun⟩, _, _, rfl, rfl, rfl, rfl, rfl, rfl⟩

/-- An idle state in which `ADD 2, 3` has been offered, with the inputs of the next cycle. -/
def afterOffer (p : Pins) : State := { facing p with offer := some addCommand }

/-- StepKeepsLoopInvariant, StepCarriesTheCommandInside: a command in BUSY, half of its words summed, with a next
state; `2^384 + 5` and `7`, whose low 12 words sum to 12. -/
theorem witness_loop_half_way :
    let s := { busyWith (Command.mk 0 (fwu (2 ^ 384 + 5)) 7 0) 1 with loc := .add 12 { cy := 0, c := 12 } }
    s.LoopInv ∧ s.holds (some (.add (fwu (2 ^ 384 + 5)) 7)) ∧ ∃ t, step s = .next t := by
  have h : loopValues (.add (fwu (2 ^ 384 + 5)) 7) (.add 12 { cy := 0, c := 12 }) := by
    simp only [loopValues]
    decide +kernel
  exact ⟨fun _ => ⟨.add (fwu (2 ^ 384 + 5)) 7, rfl, h⟩, ⟨.add (fwu (2 ^ 384 + 5)) 7, rfl, rfl⟩, _, rfl⟩

/-- StepCarriesTheCommandInside: an empty block that accepts, and one whose response is taken. -/
theorem witness_command_inside :
    (facing (offering addCommand)).holds none ∧ (facing (offering addCommand)).event = .accepted (.add 2 3) ∧
    (∃ t, step (facing (offering addCommand)) = .next t) ∧
    (doneWith (valueResponse (add 2 3)) { quiet with rspReady := true }).holds (some (.add 2 3)) ∧
    (doneWith (valueResponse (add 2 3)) { quiet with rspReady := true }).event =
      .taken (valueResponse (add 2 3)) ∧
    (∃ t, step (doneWith (valueResponse (add 2 3)) { quiet with rspReady := true }) = .next t) :=
  ⟨rfl, rfl, ⟨_, rfl⟩, ⟨_, rfl, rfl⟩, rfl, ⟨_, rfl⟩⟩

/-- UnstableOfferIsRefused: an offer that waits, each way to break it, and a change that breaks nothing. -/
theorem witness_offers :
    (∃ t, step { busyWith addCommand 0 with inputs := [offering addCommand] } = .next t) ∧
    (offering addCommand).cmdValid = true ∧
    { busyWith addCommand 0 with inputs := [offering addCommand] }.accepting = false ∧
    ((afterOffer quiet).pins.rst = false ∧ (afterOffer quiet).wasReset = true ∧ (afterOffer quiet).offer = some addCommand ∧
      (afterOffer quiet).pins.cmdValid = false) ∧
    ((afterOffer (offering { addCommand with op := 1 })).pins.rst = false ∧
      (afterOffer (offering { addCommand with op := 1 })).wasReset = true ∧
      (afterOffer (offering { addCommand with op := 1 })).offer = some addCommand ∧
      (afterOffer (offering { addCommand with op := 1 })).pins.cmdOp ≠ addCommand.op) ∧
    ((afterOffer (offering { addCommand with a := 9 })).pins.rst = false ∧
      (afterOffer (offering { addCommand with a := 9 })).wasReset = true ∧
      (afterOffer (offering { addCommand with a := 9 })).offer = some addCommand ∧
      decodeCommand (afterOffer (offering { addCommand with a := 9 })).pins.command ≠ decodeCommand addCommand) ∧
    ((afterOffer (offering { addCommand with k := 9 })).offer = some addCommand ∧
      (afterOffer (offering { addCommand with k := 9 })).pins.cmdValid = true ∧
      decodeCommand (afterOffer (offering { addCommand with k := 9 })).pins.command = .ok (.add 2 3) ∧
      decodeCommand addCommand = .ok (.add 2 3)) :=
  ⟨⟨_, rfl⟩, rfl, rfl, ⟨rfl, rfl, rfl, rfl⟩, ⟨rfl, rfl, rfl, by decide +kernel⟩, ⟨rfl, rfl, rfl, by decide +kernel⟩,
    ⟨rfl, rfl, rfl, rfl⟩⟩

/-- AcceptedCommandCompletes: a host that does nothing more after the offer, and one that offers the next command
already. -/
theorem witness_host_that_waits (n : Nat) :
    (facing (offering addCommand)).accepting = true ∧ (facing (offering addCommand)).wasReset = true ∧
    (facing (offering addCommand)).offerBroken = false ∧
    decodeCommand (facing (offering addCommand)).pins.command = .ok (.add 2 3) ∧
    hostKeeps none ((facing (offering addCommand)).inputs.tail.take (n + 1)) = true ∧
    hostKeeps none ([quiet, offering addCommand].take (n + 1)) = true := by
  refine ⟨by decide +kernel, rfl, by decide +kernel, rfl, ?_, ?_⟩
  · rfl
  · rcases n with _ | n
    · rfl
    · rw [List.take_of_length_le (by simp)]
      decide +kernel

/-- NoRuleBeforeTheFirstReset: power-up contents with `rst = 0` and with `rst = 1`. -/
theorem witness_power_up :
    (doneWith (valueResponse 5) quiet).powerUp.pins.rst = false ∧
    (doneWith (valueResponse 5) { quiet with rst := true }).powerUp.pins.rst = true := ⟨rfl, rfl⟩

/-- ResponsesMatchCommands, EndedRunStaysEnded: the state after reset. -/
theorem witness_idle : State.reset.phase = .idle ∧ State.reset.runEnded = true := by decide +kernel

end Sys2Proof.Tests
end

section
/-! PROOFS. The phase transitions (10_state.md R13) and the response as a function of the operation (R21). -/

namespace Sys2Proof.Machine

/-- Settles O44, by the rows of the transition table: each row that changes the phase is one of R13's four
transitions or a reset, and the others accept and take nothing. -/
theorem noOtherPhaseTransition : Obligations.NoOtherPhaseTransition := by
  unfold Obligations.NoOtherPhaseTransition
  refine ⟨rfl, fun s t h => ?_⟩
  obtain ⟨hrst, rfl⟩ | ⟨-, -, -, row⟩ := step_cases h
  · exact .inl ⟨hrst, rfl⟩
  obtain ⟨hacc, i, -, rfl⟩ | ⟨hidle, hacc, rfl⟩ | ⟨hbusy, -, i, hdec, rfl⟩ | ⟨hbusy, -, rfl⟩ |
    ⟨htake, rfl⟩ | ⟨hdone, htake, rfl⟩ := row
  · -- Accepted.
    obtain ⟨-, hidle, -⟩ := (accepting_iff s).mp hacc
    exact .inr (.inl ⟨hidle, hacc, rfl⟩)
  · -- Idle, nothing accepted.
    have htake : s.taking = false := taking_false_of_phase (by simp [hidle])
    exact .inr (.inr (.inr (.inr ⟨rfl, hacc, htake⟩)))
  · -- Completed.
    exact .inr (.inr (.inl ⟨hbusy, rfl, i, hdec, rfl⟩))
  · -- Busy, latency not over.
    have hacc : s.accepting = false := accepting_false_of_phase (by simp [hbusy])
    have htake : s.taking = false := taking_false_of_phase (by simp [hbusy])
    exact .inr (.inr (.inr (.inr ⟨rfl, hacc, htake⟩)))
  · -- Taken.
    obtain ⟨hdone, -, -⟩ := (taking_iff s).mp htake
    exact .inr (.inr (.inr (.inl ⟨hdone, htake, rfl⟩)))
  · -- Done, nothing taken.
    have hacc : s.accepting = false := accepting_false_of_phase (by simp [hdone])
    exact .inr (.inr (.inr (.inr ⟨rfl, hacc, htake⟩)))

/-- A step from BUSY to DONE answers the response of the operation in CMD: of R13's transitions only the
completion leads there. -/
theorem rsp_of_busy_to_done {s t : State} {i : Instr} (hbusy : s.phase = .busy)
    (hdec : decodeCommand s.cmd = .ok i) (h : step s = .next t) (hdone : t.phase = .done) :
    t.rsp = responseOf i := by
  obtain ⟨-, transitions⟩ := noOtherPhaseTransition
  obtain ⟨-, hidle⟩ | ⟨hidle, -⟩ | ⟨-, -, j, hdec', hrsp⟩ | ⟨hdone', -⟩ | ⟨hsame, -⟩ := transitions s t h
  · cases hdone.symm.trans hidle
  · cases hbusy.symm.trans hidle
  · -- Completed.
    cases hdec.symm.trans hdec'
    exact hrsp
  · cases hbusy.symm.trans hdone'
  · cases hdone.symm.trans (hsame.trans hbusy)

/-- Settles O47: each of the two responses is that of the one operation both CMDs decode to. -/
theorem responseDependsOnOperationAlone : Obligations.ResponseDependsOnOperationAlone := by
  unfold Obligations.ResponseDependsOnOperationAlone
  intro s₁ s₂ t₁ t₂ i hbusy₁ hbusy₂ hdec₁ hdec₂ h₁ h₂ hdone₁ hdone₂
  calc t₁.rsp = responseOf i := rsp_of_busy_to_done hbusy₁ hdec₁ h₁ hdone₁
    _ = t₂.rsp := (rsp_of_busy_to_done hbusy₂ hdec₂ h₂ hdone₂).symm

end Sys2Proof.Machine
end

section
/-! PROOFS. The packed command and response vectors (30_encoding.md R46, R57): the words of an operand and the
characters of a text stand in the fields that `packCommand_fields` and `packResponse_fields` give. -/

namespace Sys2Proof.Machine

/-- Word `i` of an operand that stands at bit `n` of a vector stands at bit `n + 32 i` (20_memory.md R33). -/
theorem extract_word {w n i : Nat} {v : BitVec w} {x : Fwu} (h : v.extractLsb' n 768 = x) (hi : i < 24) :
    v.extractLsb' (n + 32 * i) 32 = wordAt x i := by
  rw [← h, wordAt, extractLsb_extractLsb v n 768 (32 * i) 32 (by omega)]

theorem unpackCommand_packCommand (c : Command) : unpackCommand (packCommand c) = c := by
  obtain ⟨ha, hb, hk, hop⟩ := packCommand_fields c
  rw [unpackCommand, ha, hb, hk, hop]

/-- Settles O2: the words of `a` and `b` are read out of their 768-bit fields. -/
theorem packedCommandFieldPositions : Obligations.PackedCommandFieldPositions := by
  unfold Obligations.PackedCommandFieldPositions
  intro c
  obtain ⟨ha, hb, hk, hop⟩ := packCommand_fields c
  refine ⟨fun i hi => ?_, fun i hi => extract_word hb hi, hk, hop, unpackCommand_packCommand c⟩
  simpa using extract_word ha hi

/-- Character `q` of `str` is lane `q` of the text's 1856-bit field (30_encoding.md R57). -/
theorem packResponse_char (r : Response) {q : Nat} (hq : q < 232) :
    (packResponse r).extractLsb' (768 + 8 * q) 8 = r.str[q] := by
  obtain ⟨-, hstr, -, -⟩ := packResponse_fields r
  have hlane : packLanes r.str.toList / 2 ^ (8 * q) % 2 ^ 8 = r.str[q].toNat := by
    rw [packLanes_lane (by simpa using hq), Vector.getElem_toList]
  apply BitVec.eq_of_toNat_eq
  rw [← extractLsb_extractLsb (packResponse r) 768 1856 (8 * q) 8 (by omega), BitVec.extractLsb'_toNat, hstr,
    Nat.shiftRight_eq_div_pow, hlane]

/-- Settles O3: the characters are the lanes of the text's field, and the kind bit is read by kind. -/
theorem packedResponseFieldPositions : Obligations.PackedResponseFieldPositions := by
  unfold Obligations.PackedResponseFieldPositions
  intro r
  obtain ⟨hval, -, hlen, hkind⟩ := packResponse_fields r
  exact ⟨hval, fun q hq => packResponse_char r hq, hlen, hkind.trans (by cases r.kind <;> rfl)⟩

end Sys2Proof.Machine
end

section
/-! PROOFS. The fields a format ignores (30_encoding.md R49, R50): overwriting them changes neither the operation
decoded nor the completing step. -/

namespace Sys2Proof.Machine

/-- `c` with the fields that the format `f` ignores overwritten (30_encoding.md R49). -/
def overwriteIgnored (f : Format) (a b : Fwu) (k : Scalar) (c : Command) : Command :=
  match f with
  | .vv => { c with k := k }
  | .vk => { c with b := b }
  | .k  => { c with a := a, b := b }
  | .v  => { c with b := b, k := k }

theorem decode_overwriteIgnored {c : Command} {i : Instr} (h : decodeCommand c = .ok i) (a b : Fwu) (k : Scalar) :
    decodeCommand (overwriteIgnored i.format a b k c) = .ok i := by
  have hop := decode_op h
  have hread := decode_reads h
  obtain ⟨op, ca, cb, ck⟩ := c
  subst hop
  cases i with
  | add | sub | shlw | mul => obtain ⟨rfl, rfl⟩ := hread; rfl
  | fib | dec | seed => obtain rfl := hread; rfl

/-- Once the latency is over, a BUSY step reads of CMD only the operation it decodes to: a reset and the completion
overwrite CMD, and a refusal keeps no state (50_host_interface.md R143, R145). -/
theorem step_busy_over {s : State} {i : Instr} (hbusy : s.phase = .busy) (hwait : s.wait = 0)
    (hdec : decodeCommand s.cmd = .ok i) :
    step s = if s.pins.rst then .next s.tick.resetEdge
      else if s.wasReset = false then .refused .neverReset
      else if s.offerBroken then .refused .unstableCommand
      else .next (s.tick.respond (responseOf i)) := by
  split_ifs with hr hw hb
  · exact step_reset hr
  · exact step_neverReset (eq_false_of_ne_true hr) hw
  · exact step_broken (eq_false_of_ne_true hr) (eq_true_of_ne_false hw) hb
  · rw [step_complete (eq_false_of_ne_true hr) (eq_true_of_ne_false hw) (eq_false_of_ne_true hb) hbusy hwait hdec,
      exec_eq]

/-- Two commands that decode to the same operation complete alike. -/
theorem step_eq_of_decode_eq {c d : Command} {i : Instr} (hc : decodeCommand c = .ok i)
    (hd : decodeCommand d = .ok i) {s : State} (hbusy : s.phase = .busy) (hwait : s.wait = 0) :
    step { s with cmd := d } = step { s with cmd := c } :=
  (step_busy_over (s := { s with cmd := d }) hbusy hwait hd).trans
    (step_busy_over (s := { s with cmd := c }) hbusy hwait hc).symm

/-- Settles O5: overwriting the ignored fields keeps the operation decoded, and the step sees no more of CMD. -/
theorem ignoredFieldsChangeNothing : Obligations.IgnoredFieldsChangeNothing := by
  unfold Obligations.IgnoredFieldsChangeNothing
  intro c i a b k h
  have hd : decodeCommand (overwriteIgnored i.format a b k c) = .ok i := decode_overwriteIgnored h a b k
  exact ⟨hd, fun s hbusy hwait => step_eq_of_decode_eq h hd hbusy hwait⟩

end Sys2Proof.Machine
end

section
/-! PROOFS. The pseudo-operations (30_encoding.md R56), each the value of the unit it abbreviates. -/

namespace Sys2Proof.Machine

theorem fromSmallInteger_eq_fwu (k : Scalar) : fromSmallInteger k = fwu k.toNat :=
  BitVec.eq_of_toNat_eq (by rw [fromSmallInteger_toNat, fwu_toNat, Nat.mod_eq_of_lt (by have := k.isLt; omega)])

theorem add_eq_fwu (a b : Fwu) : add a b = fwu (val a + val b) :=
  BitVec.eq_of_toNat_eq (by rw [add_toNat, fwu_toNat, val, val])

theorem mul_eq_fwu (a b : Fwu) : mul a b = fwu (val a * val b) :=
  BitVec.eq_of_toNat_eq (by rw [mul_toNat, fwu_toNat, val, val])

/-- An operation whose response is `VALUE(x)` completes with it. -/
theorem exec_of_value {i : Instr} {x : Fwu} (h : responseOf i = valueResponse x) (s : State) :
    exec i s = .next (s.respond (valueResponse x)) := by
  rw [exec_eq, h]

/-- Settles O18, by the values of SEED, ADD and MUL. -/
theorem pseudoOperationsRespondWithTheirValues : Obligations.PseudoOperationsRespondWithTheirValues := by
  unfold Obligations.PseudoOperationsRespondWithTheirValues
  intro y s
  have hdbl : add y y = fwu (2 * val y) := by rw [add_eq_fwu, two_mul]
  have hsqr : mul y y = fwu (val y ^ 2) := by rw [mul_eq_fwu, sq]
  exact ⟨exec_of_value (i := .zero) (congrArg valueResponse (fromSmallInteger_eq_fwu 0)) s,
    exec_of_value (i := .one) (congrArg valueResponse (fromSmallInteger_eq_fwu 1)) s,
    exec_of_value (i := .dbl y) (congrArg valueResponse hdbl) s,
    exec_of_value (i := .sqr y) (congrArg valueResponse hsqr) s⟩

end Sys2Proof.Machine
end

section
/-! PROOFS. The words of the responses of SEED, ADD, SUB, SHLW and MUL (40_bigint_arithmetic.md R66, R70, R73,
R78, R82). -/

namespace Sys2Proof.Machine

/-- Writing a word leaves the words above it 0, the loop having yet to write them (R31). -/
theorem wordAt_putWord_gt (c : Fwu) {i j : Nat} (x : Word) (hi : i < 24) (hij : i < j) :
    wordAt (putWord c i x) j = 0 := by
  have hlt : (putWord c i x).toNat < 2 ^ (32 * j) := by
    rw [putWord_toNat c x hi]
    exact (add_word_lt x (Nat.mod_lt _ (Nat.two_pow_pos _))).trans_le
      (Nat.pow_le_pow_right (by norm_num) (by omega))
  apply BitVec.eq_of_toNat_eq
  simp [wordAt_toNat, Nat.div_eq_of_lt hlt]

/-- Settles O8: word 0 is written below word 1, and nothing is written above it. -/
theorem seedRespondsWithItsInteger : Obligations.SeedRespondsWithItsInteger := by
  unfold Obligations.SeedRespondsWithItsInteger
  intro k a b s
  have hword0 : wordAt (fromSmallInteger k) 0 = k.extractLsb' 0 32 := by
    rw [fromSmallInteger, wordAt_putWord_lt _ _ (by norm_num) (by norm_num), wordAt_putWord_self _ _ (by norm_num)]
  have hword1 : wordAt (fromSmallInteger k) 1 = k.extractLsb' 32 32 := wordAt_putWord_self _ _ (by norm_num)
  exact ⟨rfl, fromSmallInteger k, exec_of_value rfl s, hword0, hword1,
    fun i h2 _ => wordAt_putWord_gt _ _ (by norm_num) h2, fromSmallInteger_toNat k⟩

/-- Settles O9: the carry into a position is the carry ADD's loop holds before it. -/
theorem addRespondsWithCarryChain : Obligations.AddRespondsWithCarryChain := by
  unfold Obligations.AddRespondsWithCarryChain
  intro a b k s
  refine ⟨rfl, add a b, fun i => (addLoop a b i).cy.toNat, exec_of_value rfl s, rfl, fun i hi => ⟨?_, ?_⟩⟩
  · rw [add, wordAt_addLoop a b le_rfl hi, sumWord_toNat, carrySum]
  · exact sumCarry_toNat

/-- One position of SUB by the sign of its difference (R73). -/
theorem diff_position (x y : Word) (bw : Bit) :
    if (x.toNat : Int) - y.toNat - bw.toNat < 0 then
      ((diffWord (borrowDiff x y bw)).toNat : Int) = x.toNat - y.toNat - bw.toNat + 2 ^ 32 ∧
        (diffBorrow (borrowDiff x y bw)).toNat = 1
    else
      ((diffWord (borrowDiff x y bw)).toNat : Int) = x.toNat - y.toNat - bw.toNat ∧
        (diffBorrow (borrowDiff x y bw)).toNat = 0 := by
  have hexact := borrow_position x y bw
  split
  case isTrue hneg =>
    have hborrow : (diffBorrow (borrowDiff x y bw)).toNat = 1 := by rw [diffBorrow, borrowDiff, if_pos hneg]; rfl
    exact ⟨by omega, hborrow⟩
  case isFalse hnonneg =>
    have hborrow : (diffBorrow (borrowDiff x y bw)).toNat = 0 := by rw [diffBorrow, borrowDiff, if_neg hnonneg]; rfl
    exact ⟨by omega, hborrow⟩

/-- Settles O11: the borrow into a position is the borrow SUB's loop holds before it. -/
theorem subRespondsWithBorrowChain : Obligations.SubRespondsWithBorrowChain := by
  unfold Obligations.SubRespondsWithBorrowChain
  intro a b k s
  refine ⟨rfl, sub a b, fun i => (subLoop a b i).bw.toNat, exec_of_value rfl s, rfl, fun i hi => ?_⟩
  rw [sub, wordAt_subLoop a b le_rfl hi]
  exact diff_position (wordAt a i) (wordAt b i) (subLoop a b i).bw

/-- Settles O13: the words are those of `shift_words`, and a count of 24 or more moves every word out. -/
theorem shiftRespondsWithMovedWords : Obligations.ShiftRespondsWithMovedWords := by
  unfold Obligations.ShiftRespondsWithMovedWords
  intro a b k s
  have hout : 24 ≤ k.toNat → shiftWords a k.toNat = fwu 0 := fun h => by
    rw [shiftWords_eq]
    exact BitVec.shiftLeft_eq_zero (by omega)
  exact ⟨rfl, shiftWords a k.toNat, exec_of_value rfl s, fun i hi => wordAt_shiftWords a k.toNat hi, hout⟩

/-- MUL's loop over rows accumulates the pairs in the order R82 lists them. -/
theorem mul_eq_accumulate (a b : Fwu) : mul a b = accumulate a b mulPairs := by
  rw [mul, mulLoop, mulRow, forUp_zero, rows_eq a b le_rfl, accumulate_eq, mulPairs]

theorem mem_mulPairs (i j : Nat) : (i, j) ∈ mulPairs ↔ i < 24 ∧ j < 24 ∧ i + j < 24 := by
  have hrow : (i, j) ∈ mulPairs ↔ i < 24 ∧ j < 24 - i := by simp [mulPairs]
  rw [hrow]
  omega

/-- No pair is listed twice: a row has each `j` once, and pairs of different rows differ in `i`. -/
theorem nodup_mulPairs : mulPairs.Nodup := by
  refine List.nodup_flatMap.mpr ⟨fun i _ => ?_, ?_⟩
  · exact List.nodup_range.map (Prod.mk_right_injective i)
  · refine List.nodup_range.imp fun {i i'} hne => List.disjoint_left.mpr fun p hp hp' => ?_
    obtain ⟨j, -, rfl⟩ := List.mem_map.mp hp
    obtain ⟨j', -, heq⟩ := List.mem_map.mp hp'
    exact hne (congrArg Prod.fst heq).symm

/-- Settles O15: MUL's loop is the accumulation over `mulPairs`. -/
theorem mulRespondsWithSchoolbookProduct : Obligations.MulRespondsWithSchoolbookProduct := by
  unfold Obligations.MulRespondsWithSchoolbookProduct
  have hresponse (a b : Fwu) : responseOf (.mul a b) = valueResponse (accumulate a b mulPairs) :=
    congrArg valueResponse (mul_eq_accumulate a b)
  exact ⟨fun a b _ s => ⟨rfl, exec_of_value (hresponse a b) s⟩, mem_mulPairs, nodup_mulPairs⟩

end Sys2Proof.Machine
end

section
/-! PROOFS. FIB as its base cases and its loop (41_fast_doubling_fib.md R101, R109). -/

namespace Sys2Proof.Machine

/-- `fib(n)` by its base cases and else by the loop from (F(1), F(2)) (R101). -/
theorem fib_eq_base_or_loop (n : Scalar) :
    fib n = if n = 0 then fromSmallInteger 0 else if n = 1 then fromSmallInteger 1
      else (forDown (fibIter n) (msb n) { a := fromSmallInteger 1, b := fromSmallInteger 1 }).a := by
  rw [fib, fibResult, fibStart]

/-- Settles O21: the K format reads only the index, and the response is VALUE of `fib`, given by its base cases and
its loop. -/
theorem fibRespondsByItsLoop : Obligations.FibRespondsByItsLoop := by
  unfold Obligations.FibRespondsByItsLoop
  intro n a b s
  have hdecode : decodeCommand { op := 4, a := a, b := b, k := n } = .ok (.fib n) := rfl
  have hresponse : responseOf (.fib n) = valueResponse (fib n) := rfl
  exact ⟨hdecode, exec_of_value hresponse s, fib_eq_base_or_loop n⟩

end Sys2Proof.Machine
end

section
/-! PROOFS. DEC as its loop, and the order in which the loop visits the bits of its operand
(42_decimal_formatter.md R122, R123). -/

namespace Sys2Proof.Machine

/-- DEC's loop without the decimal carry it keeps beside the buffer, which no later bit reads. -/
theorem forDown_decBit_buffer (v : Fwu) (m : Nat) (w : DecWork) :
    (forDown (decBit v) m w).D = forDown (fun m D => addBit (double D) (scannedBit v m)) m w.D := by
  induction m generalizing w with
  | zero => rfl
  | succ m ih => rw [forDown_succ, forDown_succ, ih, decBit]

/-- DEC completes with what `strip` leaves of its loop's buffer (R122). -/
theorem exec_dec (v : Fwu) (s : State) :
    exec (.dec v) s = .next (s.respond (stripped
      (forDown (fun m D => addBit (double D) (scannedBit v m)) (scanBits v) (Vector.replicate 232 0x30)))) := by
  have hresponse : responseOf (.dec v) = stripped (decLoop v (scanBits v)).D := rfl
  have hstart : decStart.D = Vector.replicate 232 0x30 := rfl
  rw [exec_eq, hresponse, decLoop, forDown_decBit_buffer, hstart]

/-- Settles O27: the V format reads only `a`, and the response is the stripped buffer of the loop. -/
theorem decRespondsByItsLoop : Obligations.DecRespondsByItsLoop := by
  unfold Obligations.DecRespondsByItsLoop
  exact fun v b k s => ⟨rfl, exec_dec v s⟩

theorem usedWords_zero (n : Nat) : usedWords 0 n = 0 := by
  induction n with
  | zero => rfl
  | succ n ih =>
    have hword : wordAt 0 n = 0 := by simp [wordAt]
    rw [usedWords, if_pos hword, ih]

/-- Cursor number `q` of a scan: 32 cursors a word from the top word down, and in each from bit 31 down (R123). -/
theorem scanCursors_getElem? {n q : Nat} (hq : q < 32 * n) :
    (scanCursors n)[q]? = some (n - 1 - q / 32, 31 - q % 32) := by
  induction n generalizing q with
  | zero => omega
  | succ n ih =>
    have hrow : ((List.range 32).reverse.map fun bi => (n, bi)).length = 32 := by simp
    rw [scanCursors_succ]
    by_cases htop : q < 32
    · -- The cursor is in the top word.
      have hcursor : (n + 1 - 1 - q / 32, 31 - q % 32) = (n, 31 - q) := by
        rw [Nat.div_eq_of_lt htop, Nat.mod_eq_of_lt htop, Nat.sub_zero, Nat.add_sub_cancel]
      rw [List.getElem?_append_left (by omega), hcursor]
      simp [htop]
    · -- The cursor is in a word below it.
      have hcursor : (n - 1 - (q - 32) / 32, 31 - (q - 32) % 32) = (n + 1 - 1 - q / 32, 31 - q % 32) := by
        rw [Prod.mk.injEq]
        omega
      rw [List.getElem?_append_right (by omega), hrow, ih (by omega), hcursor]

theorem scannedBit_cursor (v : Fwu) (wi : Nat) {bi : Nat} (hbi : bi < 32) :
    scannedBit v (32 * wi + bi) = (wordAt v wi).extractLsb' bi 1 := by
  rw [scannedBit, show (32 * wi + bi) / 32 = wi by omega, show (32 * wi + bi) % 32 = bi by omega]

/-- Settles O28: the words in use give the number of bits, and the descending loop is the fold over the cursors. -/
theorem scanVisitsTheBitsOfTheUsedWords : Obligations.ScanVisitsTheBitsOfTheUsedWords := by
  unfold Obligations.ScanVisitsTheBitsOfTheUsedWords
  intro v
  refine ⟨?zero, ?scan, fun wi bi _ hbi => scannedBit_cursor v wi hbi, ?weight⟩
  case zero =>
    rintro rfl
    have hbits : scanBits 0 = 0 := by rw [scanBits, usedWords_zero]
    refine ⟨hbits, fun s => ?_⟩
    rw [exec_dec, hbits, forDown_zero]
  case scan =>
    intro hw hlt hne hz
    have hbits : scanBits v = 32 * (hw + 1) := by rw [scanBits, usedWords_of_highest hlt hne hz]
    refine ⟨hbits, scanCursors_length (hw + 1), fun q hq => scanCursors_getElem? hq, fun s => ?_⟩
    rw [exec_dec, hbits, forDown_scan]
  case weight =>
    intro wi bi _ hbi
    rw [scannedBit_cursor v wi hbi, wordAt, extractLsb_extractLsb v (32 * wi) 32 bi 1 (by omega)]

end Sys2Proof.Machine
end

section
/-! PROOFS. `double` digit by digit, from the least significant position up (42_decimal_formatter.md R124). -/

namespace Sys2Proof.Machine

/-- The decimal carry into position `p`: what doubling the positions below it carries out (R124). -/
def doubleCarryInto (dc : Bit) (ds : List Byte) (p : Nat) : Bit := (doubleDigits dc (ds.take p)).2

/-- The digit sum of a position gives the carry into the position above it (R124). -/
theorem doubleCarryInto_succ (dc : Bit) {ds : List Byte} {p : Nat} (hp : p < ds.length) :
    doubleCarryInto dc ds (p + 1) = digitCarry (2 * digitVal ds[p] + (doubleCarryInto dc ds p).toNat) := by
  induction ds generalizing dc p with
  | nil => simp at hp
  | cons d ds ih =>
    cases p with
    | zero => rfl
    | succ p => exact ih _ (Nat.lt_of_succ_lt_succ hp)

/-- The digit sum of a position gives its new digit (R124). -/
theorem doubleDigits_getElem (dc : Bit) {ds : List Byte} {p : Nat} (hp : p < ds.length) :
    (doubleDigits dc ds).1[p]'(by rwa [doubleDigits_length]) =
      digitWrap (2 * digitVal ds[p] + (doubleCarryInto dc ds p).toNat) := by
  induction ds generalizing dc p with
  | nil => simp at hp
  | cons d ds ih =>
    cases p with
    | zero => rfl
    | succ p => exact ih _ (Nat.lt_of_succ_lt_succ hp)

theorem double_getElem (D : Buffer) {p : Nat} (hp : p < 232) :
    (double D)[p] = digitWrap (2 * digitVal D[p] + (doubleCarryInto 0 D.toList p).toNat) :=
  doubleDigits_getElem 0 (ds := D.toList) (by simpa using hp)

theorem doubleCarry_eq_carryInto (D : Buffer) : doubleCarry D = doubleCarryInto 0 D.toList 232 := by
  rw [doubleCarryInto, List.take_of_length_le (buffer_length D).le, doubleCarry]

/-- One position of a pass by its digit sum (R124, R125). -/
theorem digit_position {x : Nat} (hx : x ≤ 19) :
    if 10 ≤ x then (digitWrap x).toNat = 0x30 + (x - 10) ∧ (digitCarry x).toNat = 1
    else (digitWrap x).toNat = 0x30 + x ∧ (digitCarry x).toNat = 0 := by
  unfold digitWrap digitCarry
  split
  · exact ⟨ascii_toNat (by omega), rfl⟩
  · exact ⟨ascii_toNat (by omega), rfl⟩

/-- Settles O29: the carries are those into the positions, and each sum is of a doubled digit and one carry. -/
theorem doubleCarriesDigitByDigit : Obligations.DoubleCarriesDigitByDigit := by
  unfold Obligations.DoubleCarriesDigitByDigit
  intro D hD
  refine ⟨fun p => (doubleCarryInto 0 D.toList p).toNat, rfl, by rw [doubleCarry_eq_carryInto], fun p hp => ?_⟩
  have hsum : 2 * digitVal D[p] + (doubleCarryInto 0 D.toList p).toNat ≤ 19 := by
    have := digitVal_le (hD p hp)
    have := (doubleCarryInto 0 D.toList p).isLt
    omega
  have hcarry : doubleCarryInto 0 D.toList (p + 1) =
      digitCarry (2 * digitVal D[p] + (doubleCarryInto 0 D.toList p).toNat) :=
    doubleCarryInto_succ 0 (ds := D.toList) (by simpa using hp)
  beta_reduce
  rw [double_getElem D hp, hcarry]
  exact ⟨hsum, digit_position hsum⟩

end Sys2Proof.Machine
end

section
/-! PROOFS. What `strip` keeps, and in which order (42_decimal_formatter.md R126). -/

namespace Sys2Proof.Machine

theorem digitAt_eq_getElem (D : Buffer) {p : Nat} (hp : p < 232) : digitAt D p = D[p] := by
  rw [digitAt_eq D hp, Vector.getElem_toList]

theorem stripStr_getElem (D : Buffer) (l : Nat) {q : Nat} (hq : q < 232) :
    (stripStr D l)[q] = if q < l then digitAt D (l - 1 - q) else 0 := by
  simp [stripStr]

/-- Settles O31: `stripLen_spec` says where stripping stops, and `str` is read downwards from there. -/
theorem stripLeavesReadingOrder : Obligations.StripLeavesReadingOrder := by
  unfold Obligations.StripLeavesReadingOrder
  intro D
  obtain ⟨hpos, hle, hzeros, htop⟩ := stripLen_spec D (n := 232) (by norm_num)
  have hlen : (stripped D).len.toNat = stripLen D 232 := by
    rw [stripped, stringResponse, BitVec.toNat_ofNat, Nat.mod_eq_of_lt (by omega)]
  have hchar (q : Nat) (hq : q < 232) :
      (stripped D).str[q] = if q < stripLen D 232 then digitAt D (stripLen D 232 - 1 - q) else 0 :=
    stripStr_getElem D (stripLen D 232) hq
  refine ⟨stripLen D 232, hlen, hpos, hle, ?dropped, ?top, ?kept, ?padding⟩
  case dropped =>
    intro p hp hlp
    rw [← digitAt_eq_getElem D hp]
    exact hzeros p hlp hp
  case top =>
    intro hl h1
    rw [← digitAt_eq_getElem D hl]
    exact htop h1
  case kept =>
    intro q hq hp hql
    rw [hchar q hq, if_pos hql, digitAt_eq_getElem D hp]
  case padding =>
    intro q hq hlq
    rw [hchar q hq, if_neg (by omega)]

end Sys2Proof.Machine
end

section
/-! PROOFS. The transaction protocol (50_host_interface.md R142 to R144, R147): the rows of the transition table, the
response held in DONE, and what the events of a run do to the command inside the block. -/

namespace Sys2Proof.Machine

/-! The response outputs. -/

theorem rspValid_iff (s : State) : s.outputs.rspValid = true ↔ s.phase = .done := beq_iff_eq

theorem outputs_of_done {s : State} (h : s.phase = .done) :
    s.outputs = { cmdReady := false, rspValid := true, rsp := s.rsp } := by
  obtain ⟨⟩ := s
  cases h
  rfl

/-- Settles O45: an edge in DONE that takes nothing only ticks, which keeps the phase and RSP. -/
theorem responseHeldUntilTaken : Obligations.ResponseHeldUntilTaken := by
  unfold Obligations.ResponseHeldUntilTaken
  intro s t hstep hrst hvalid
  have hdone : s.phase = .done := (rspValid_iff s).mp hvalid
  refine ⟨by rw [outputs_of_done hdone], fun htake => ?_⟩
  have htick : t = s.tick := by
    obtain ⟨hrst', -⟩ | ⟨-, hreset, hoffer, -⟩ := step_cases hstep
    · cases hrst.symm.trans hrst'
    · exact Host.Outcome.next.inj (hstep.symm.trans (step_hold hrst hreset hoffer hdone htake))
  rw [htick, outputs_of_done hdone, outputs_of_done (s := s.tick) hdone, State.tick_rsp]

/-! The event of a cycle, by what happens in it. -/

theorem event_reset {s : State} (hrst : s.pins.rst = true) : s.event = .reset := if_pos hrst

theorem event_accepted {s : State} {i : Instr} (hacc : s.accepting = true)
    (hdec : decodeCommand s.pins.command = .ok i) : s.event = .accepted i := by
  obtain ⟨-, -, hrst⟩ := (accepting_iff s).mp hacc
  refine (if_neg (ne_true_of_eq_false hrst)).trans ((if_pos hacc).trans ?_)
  rw [hdec]

theorem event_taken {s : State} (htake : s.taking = true) : s.event = .taken s.rsp := by
  obtain ⟨hdone, -, hrst⟩ := (taking_iff s).mp htake
  have hacc : s.accepting = false := accepting_false_of_phase (by simp [hdone])
  refine (if_neg (ne_true_of_eq_false hrst)).trans
    ((if_neg (ne_true_of_eq_false hacc)).trans ((if_pos htake).trans ?_))
  rw [outputs_of_done hdone]

theorem event_quiet {s : State} (hrst : s.pins.rst = false) (hacc : s.accepting = false)
    (htake : s.taking = false) : s.event = .quiet :=
  (if_neg (ne_true_of_eq_false hrst)).trans
    ((if_neg (ne_true_of_eq_false hacc)).trans (if_neg (ne_true_of_eq_false htake)))

/-! The transition table. -/

theorem decodeCommand_reserved {c : Command} (h : c.op = 7) : decodeCommand c = .error .reservedOpcode := by
  obtain ⟨⟩ := c
  cases h
  rfl

/-- A BUSY cycle of a legal command completes it or waits, as the latency decides (50_host_interface.md R143). -/
theorem step_busy {s : State} {i : Instr} (hrst : s.pins.rst = false) (hreset : s.wasReset = true)
    (hoffer : s.offerBroken = false) (hbusy : s.phase = .busy) (hdec : decodeCommand s.cmd = .ok i) :
    step s = .next (s.tick.respond (responseOf i)) ∨ step s = .next s.tick.advance := by
  by_cases hwait : s.wait = 0
  · exact .inl ((step_complete hrst hreset hoffer hbusy hwait hdec).trans (exec_eq i s.tick))
  · exact .inr (step_wait hrst hreset hoffer hbusy hwait)

/-- Settles O42: each row is the edge lemma of its case. -/
theorem transitionTable : Obligations.TransitionTable := by
  unfold Obligations.TransitionTable
  intro s hrst hreset hoffer
  refine ⟨?accepted, ?reserved, ?idle, ?busy, ?taken, ?held⟩
  case accepted =>
    intro i hacc hdec
    exact ⟨_, _, step_accept hrst hreset hoffer hacc hdec, rfl, rfl, rfl⟩
  case reserved =>
    intro hacc hop
    exact step_accept_reserved hrst hreset hoffer hacc (decodeCommand_reserved hop)
  case idle =>
    intro hidle hacc
    exact ⟨_, step_idle hrst hreset hoffer hidle hacc, hidle, rfl, rfl, rfl⟩
  case busy =>
    intro i hbusy hdec
    obtain hcomplete | hwait := step_busy hrst hreset hoffer hbusy hdec
    · exact ⟨_, hcomplete, .inl ⟨rfl, rfl⟩⟩
    · exact ⟨_, hwait, .inr ⟨hbusy, rfl⟩⟩
  case taken =>
    intro htake
    exact ⟨event_taken htake, _, step_take hrst hreset hoffer htake, rfl⟩
  case held =>
    intro hdone htake
    exact ⟨_, step_hold hrst hreset hoffer hdone htake, hdone, rfl, rfl, rfl⟩

/-! The command inside the block. -/

theorem holds_idle {s : State} (h : s.phase = .idle) (inside : Option Instr) : s.holds inside ↔ inside = none := by
  obtain ⟨⟩ := s
  cases h
  exact Iff.rfl

theorem holds_busy {s : State} (h : s.phase = .busy) (inside : Option Instr) :
    s.holds inside ↔ ∃ i, inside = some i ∧ decodeCommand s.cmd = .ok i := by
  obtain ⟨⟩ := s
  cases h
  exact Iff.rfl

theorem holds_done {s : State} (h : s.phase = .done) (inside : Option Instr) :
    s.holds inside ↔ ∃ i, inside = some i ∧ s.rsp = responseOf i := by
  obtain ⟨⟩ := s
  cases h
  exact Iff.rfl

/-- A quiet cycle leaves the matching to the events after it. -/
theorem matched_of_quiet {s : State} {inside : Option Instr} {es : List Event} (hrst : s.pins.rst = false)
    (hacc : s.accepting = false) (htake : s.taking = false) (hes : matched inside es) :
    matched inside (s.event :: es) := by
  rw [event_quiet hrst hacc htake]
  exact hes

/-- The event of a step matches the command inside, by the rows of the transition table, where the events after it
match whatever command the next state holds. -/
theorem matched_step {s t : State} {inside : Option Instr} {es : List Event} (hs : s.holds inside)
    (h : step s = .next t) (hes : ∀ after, t.holds after → matched after es) : matched inside (s.event :: es) := by
  obtain ⟨hrst, rfl⟩ | ⟨hrst, -, -, row⟩ := step_cases h
  · -- Reset.
    rw [event_reset hrst]
    exact hes none rfl
  obtain ⟨hacc, i, hdec, rfl⟩ | ⟨hidle, hacc, rfl⟩ | ⟨hbusy, -, i, hdec, rfl⟩ | ⟨hbusy, -, rfl⟩ |
    ⟨htake, rfl⟩ | ⟨hdone, htake, rfl⟩ := row
  · -- Accepted.
    obtain ⟨-, hidle, -⟩ := (accepting_iff s).mp hacc
    rw [event_accepted hacc hdec]
    exact ⟨(holds_idle hidle inside).mp hs, hes (some i) ⟨i, rfl, hdec⟩⟩
  · -- Idle, nothing accepted.
    exact matched_of_quiet hrst hacc (taking_false_of_phase (by simp [hidle])) (hes inside hs)
  · -- Completed.
    obtain ⟨j, rfl, hdec'⟩ := (holds_busy hbusy inside).mp hs
    cases hdec.symm.trans hdec'
    exact matched_of_quiet hrst (accepting_false_of_phase (by simp [hbusy]))
      (taking_false_of_phase (by simp [hbusy])) (hes (some i) ⟨i, rfl, rfl⟩)
  · -- Busy, latency not over.
    exact matched_of_quiet hrst (accepting_false_of_phase (by simp [hbusy]))
      (taking_false_of_phase (by simp [hbusy])) (hes inside hs)
  · -- Taken.
    obtain ⟨hdone, -, -⟩ := (taking_iff s).mp htake
    rw [event_taken htake]
    exact ⟨(holds_done hdone inside).mp hs, hes none rfl⟩
  · -- Done, nothing taken.
    exact matched_of_quiet hrst (accepting_false_of_phase (by simp [hdone])) htake (hes inside hs)

/-! Runs. -/

/-- A run goes on with the event of a step that answers, and else ends. -/
theorem trace_succ (k : Nat) (s : State) :
    (∃ t, step s = .next t ∧ trace (k + 1) s = s.event :: trace k t) ∨ trace (k + 1) s = [] := by
  rw [trace]
  cases step s with
  | next t => exact .inl ⟨t, rfl, rfl⟩
  | fault r => exact .inr rfl
  | refused r => exact .inr rfl

/-- From any state, the events of a run match the command inside it. -/
theorem matched_trace (k : Nat) {s : State} {inside : Option Instr} (hs : s.holds inside) :
    matched inside (trace k s) := by
  induction k generalizing s inside with
  | zero => exact trivial
  | succ k ih =>
    obtain ⟨t, hstep, htrace⟩ | htrace := trace_succ k s <;> rw [htrace]
    · exact matched_step hs hstep fun after ht => ih ht
    · exact trivial

/-- Settles O54: an IDLE state holds no command, so the events of a run from it match. -/
theorem responsesMatchCommands : Obligations.ResponsesMatchCommands := by
  unfold Obligations.ResponsesMatchCommands
  intro k s hidle
  exact matched_trace k ((holds_idle hidle none).mpr rfl)

end Sys2Proof.Machine
end

section
/-! PROOFS. Reset (70_reset_and_hazards.md R180): it wins in every phase, and the IDLE state it leads to is ready for
a command and offers no response. -/

namespace Sys2Proof.Machine

theorem cmdReady_of_idle {s : State} (h : s.phase = .idle) : s.outputs.cmdReady = true := beq_iff_eq.mpr h

theorem rspValid_false_of_idle {s : State} (h : s.phase = .idle) : s.outputs.rspValid = false := by
  rw [← Bool.not_eq_true, rspValid_iff, h]
  exact Phase.noConfusion

/-- Settles O40: `rst` shuts both handshakes, and the reset edge, which is IDLE, comes before every other row. -/
theorem resetWinsFromAnyState : Obligations.ResetWinsFromAnyState := by
  unfold Obligations.ResetWinsFromAnyState
  intro s hrst
  have hidle : s.tick.resetEdge.phase = .idle := State.resetEdge_phase s.tick
  exact ⟨accepting_false_of_rst hrst, taking_false_of_rst hrst, s.tick.resetEdge, step_reset hrst, hidle,
    cmdReady_of_idle hidle, rspValid_false_of_idle hidle⟩

end Sys2Proof.Machine
end

section
/-! PROOFS. The decoder undoes the encoder, and rejects the reserved code alone (30_encoding.md R46, R48, R52). -/

namespace Sys2Proof.Machine

theorem fields_statement (i : Instr) : Laws.Fields.Statement i :=
  match i with
  | .add a b  => Laws.Fields.add a b
  | .sub a b  => Laws.Fields.sub a b
  | .shlw a k => Laws.Fields.shlw a k
  | .mul a b  => Laws.Fields.mul a b
  | .fib k    => Laws.Fields.fib k
  | .dec a    => Laws.Fields.dec a
  | .seed k   => Laws.Fields.seed k

theorem decodeCommand_commandOf (i : Instr) : decodeCommand (commandOf i) = .ok i := by
  obtain ⟨-, -, -, hdec⟩ := fields_statement i
  exact hdec

/-- Settles O1: unpacking gives the command of the operation back, and that command decodes to it. -/
theorem decodeUndoesEncode : Obligations.DecodeUndoesEncode := by
  unfold Obligations.DecodeUndoesEncode
  intro i _
  rw [decode, encode, unpackCommand_packCommand, decodeCommand_commandOf]

theorem wellFormed_all (i : Instr) : i.wellFormed = true := by
  obtain ⟨hwf, -⟩ := fields_statement i
  exact hwf

/-- Every command but one with the reserved code is an operation (30_encoding.md R48, R53). -/
theorem exists_decode_of_op_ne {c : Command} (h : c.op ≠ 7) : ∃ i, decodeCommand c = .ok i := by
  have hne : c.op.toNat ≠ 7 := fun hop => h (BitVec.eq_of_toNat_eq hop)
  have hlt : c.op.toNat < 7 := lt_of_le_of_ne (Nat.le_of_lt_succ c.op.isLt) hne
  unfold decodeCommand
  interval_cases c.op.toNat
  all_goals exact ⟨_, rfl⟩

/-- Settles O4: the op field is that of the unpacked command, whose decoding it decides. -/
theorem decoderRejectsOnlyReservedOpcode : Obligations.DecoderRejectsOnlyReservedOpcode := by
  unfold Obligations.DecoderRejectsOnlyReservedOpcode
  intro v
  refine ⟨fun hop => decodeCommand_reserved (c := unpackCommand v) hop, fun hop => ?_⟩
  obtain ⟨i, hdec⟩ := exists_decode_of_op_ne (c := unpackCommand v) hop
  exact ⟨i, hdec, decode_op hdec, wellFormed_all i⟩

/-- A sum of four weights fills its four fields and no bit above them. -/
theorem sum_of_fields_lt {x₀ x₁ x₂ x₃ n₀ n₁ n₂ n₃ m₁ m₂ w : Nat} (e₁ : m₁ = n₀ + n₁) (e₂ : m₂ = m₁ + n₂)
    (ew : w = m₂ + n₃) (h₀ : x₀ < 2 ^ n₀) (h₁ : x₁ < 2 ^ n₁) (h₂ : x₂ < 2 ^ n₂) (h₃ : x₃ < 2 ^ n₃) :
    x₀ + x₁ * 2 ^ n₀ + x₂ * 2 ^ m₁ + x₃ * 2 ^ m₂ < 2 ^ w := by
  subst e₁ e₂ ew
  exact sum_lt (sum_lt (sum_lt h₀ h₁) h₂) h₃

/-- A number written by the field weights of R46 is decoded as the command of those fields. -/
theorem decodeTableWord_fields {nbits w : Nat} (c : Command) (hbits : 1603 ≤ nbits)
    (hw : w = c.a.toNat + c.b.toNat * 2 ^ 768 + c.k.toNat * 2 ^ 1536 + c.op.toNat * 2 ^ 1600) :
    decodeTableWord nbits w = (decodeCommand c).toOption := by
  have hlt : w < 2 ^ 1603 := hw ▸ sum_of_fields_lt rfl rfl rfl c.a.isLt c.b.isLt c.k.isLt c.op.isLt
  have hmod : w % 2 ^ nbits = w := Nat.mod_eq_of_lt (hlt.trans_le (pow_le_pow_right₀ one_le_two hbits))
  rw [decodeTableWord, hmod, decodeNat, if_pos hlt, hw, ← packCommand, decode, unpackCommand_packCommand]

/-- An operand of few bits is not reduced by the width of its field. -/
theorem mod_of_lt_128 {x : Nat} (h : x < 2 ^ 128) : x % 2 ^ 768 = x :=
  Nat.mod_eq_of_lt (h.trans (Nat.pow_lt_pow_right (m := 128) (n := 768) (by norm_num) (by norm_num)))

/-- Settles O6: each vector is the sum of the weights of its fields. -/
theorem specCommandVectorsDecode : Obligations.SpecCommandVectorsDecode := by
  unfold Obligations.SpecCommandVectorsDecode
  refine ⟨decodeTableWord_fields ⟨0, 0x15, 0x22, 0⟩ (by norm_num) ?_,
    decodeTableWord_fields ⟨1, 0x10, 0x5, 0⟩ (by norm_num) ?_,
    decodeTableWord_fields ⟨2, 0x7, 0, 0x17⟩ (by norm_num) ?_,
    decodeTableWord_fields ⟨3, 0x5, 0xB, 0⟩ (by norm_num) ?_,
    decodeTableWord_fields ⟨4, 0, 0, 0xA⟩ (by norm_num) ?_,
    decodeTableWord_fields ⟨5, 0x1333DB76A7C594BFC3, 0, 0⟩ (by norm_num) ?_,
    decodeTableWord_fields ⟨6, 0, 0, 1⟩ (by norm_num) ?_,
    decodeTableWord_fields ⟨7, 0, 0, 0⟩ (by norm_num) ?_⟩ <;>
  simp [mod_of_lt_128, Nat.add_comm, Nat.add_assoc]

end Sys2Proof.Machine
end

section
/-! PROOFS. The value laws of 00_scope.md R7 and of ADD, SUB, SHLW and MUL (40_bigint_arithmetic.md R71, R74, R79,
R83), most of them laws of the ring of residues modulo 2^768. -/

namespace Sys2Proof.Machine

/-- 2^768 by a power that `norm_num` evaluates. -/
theorem two_pow_768 : 2 ^ 768 = (2 ^ 256) ^ 3 := by rw [← pow_mul]

theorem val_fwu (x : Nat) : val (fwu x) = x % 2 ^ 768 := fwu_toNat x

theorem val_inj {a b : Fwu} : val a = val b ↔ a = b := BitVec.toNat_inj

theorem fwu_zero : fwu 0 = 0 := rfl

theorem wordAt_zero (i : Nat) : wordAt 0 i = 0 := by simp [wordAt]

/-- A word of `fwu x` is that word of `x` itself: what `fwu` drops lies above word 23 (00_scope.md R7). -/
theorem wordAt_fwu_toNat (x : Nat) {i : Nat} (hi : i < 24) : (wordAt (fwu x) i).toNat = x / 2 ^ (32 * i) % 2 ^ 32 := by
  have hsplit : (768 : Nat) = 32 * i + (32 + (736 - 32 * i)) := by omega
  rw [wordAt_toNat, fwu_toNat, hsplit, pow_add, Nat.mod_mul_right_div_self, pow_add, Nat.mod_mul_right_mod]

/-- Settles O7, by the sum of the words and by extensionality in words and in value. -/
theorem fwuIsItsWords : Obligations.FwuIsItsWords := by
  unfold Obligations.FwuIsItsWords
  refine ⟨fun a => ?sum, fun a => Nat.le_sub_one_of_lt a.isLt, val_fwu, fun x i hi => wordAt_fwu_toNat x hi,
    fun a b => ⟨eq_of_words, ?words⟩, fun a b => val_inj, fun i _ => wordAt_zero i⟩
  case sum => rw [← mod_pow_eq_sum, toNat_mod_full, val]
  case words =>
    rintro rfl i -
    rfl

theorem bit_zero_or_one (x : Bit) : x = 0 ∨ x = 1 := by
  have hle := bit_toNat_le x
  rcases Nat.le_one_iff_eq_zero_or_eq_one.mp hle with h | h
  · exact .inl (BitVec.eq_of_toNat_eq h)
  · exact .inr (BitVec.eq_of_toNat_eq h)

theorem addCarry_toNat (a b : Fwu) : (addCarry a b).toNat = (val a + val b) / 2 ^ 768 := by
  have hexact := add_with_carry a b
  have hlt := (add a b).isLt
  rw [val, val, ← hexact, Nat.add_mul_div_right _ _ (Nat.two_pow_pos 768), Nat.div_eq_of_lt hlt, Nat.zero_add]

/-- Settles O10: ADD is the sum of the ring, and its dropped carry the quotient. -/
theorem addValueLaw : Obligations.AddValueLaw := by
  unfold Obligations.AddValueLaw
  refine ⟨add_toNat, fun a b => ?comm, fun a b c => ?assoc, fun a => ?zero,
    fun a b => ⟨addCarry_toNat a b, bit_zero_or_one _⟩⟩
  case comm => rw [add_eq, add_eq, add_comm]
  case assoc => rw [add_eq, add_eq, add_eq, add_eq, add_assoc]
  case zero => rw [add_eq, add_eq, fwu_zero, add_zero, zero_add]; exact ⟨rfl, rfl⟩

theorem subBorrow_eq_zero_iff (a b : Fwu) : subBorrow a b = 0 ↔ ¬ val a < val b := by
  rw [val, val, ← subBorrow_eq_one_iff]
  rcases bit_zero_or_one (subBorrow a b) with h | h <;> rw [h] <;> decide

theorem val_sub_of_le {a b : Fwu} (h : val b ≤ val a) : val (sub a b) = val a - val b := by
  have hexact := sub_with_borrow a b
  have hborrow : (subBorrow a b).toNat = 0 := by rw [(subBorrow_eq_zero_iff a b).mpr (Nat.not_lt.mpr h)]; rfl
  rw [hborrow, Nat.zero_mul, Nat.add_zero] at hexact
  exact Nat.eq_sub_of_add_eq hexact.symm

/-- Settles O12: SUB is the difference of the ring, and its dropped borrow accounts for what it wraps. -/
theorem subValueLaw : Obligations.SubValueLaw := by
  unfold Obligations.SubValueLaw
  refine ⟨fun a b => ?_, fun a b => ⟨subBorrow_eq_one_iff a b, subBorrow_eq_zero_iff a b⟩,
    fun a b h => val_sub_of_le h, fun a b => ?_⟩
  · exact emod_of_borrow (sub_with_borrow a b) (sub a b).isLt
  · rw [add_eq, sub_eq, sub_add_cancel]

theorem shiftWords_of_ge (a : Fwu) {s : Nat} (h : 24 ≤ s) : shiftWords a s = fwu 0 := by
  rw [shiftWords_eq]
  exact BitVec.shiftLeft_eq_zero (by omega)

/-- Settles O14: SHLW is the shift of the 768-bit vector by whole words. -/
theorem shiftValueLawAndComposition : Obligations.ShiftValueLawAndComposition := by
  unfold Obligations.ShiftValueLawAndComposition
  refine ⟨shiftWords_toNat, fun a s t => ?_, fun a s h => shiftWords_of_ge a h, fun s => ?_⟩
  · rw [shiftWords_eq, shiftWords_eq, shiftWords_eq, Nat.mul_add, BitVec.shiftLeft_add]
  · rw [shiftWords_eq]
    exact BitVec.zero_shiftLeft _

/-- Partial products of pairs that are shifted out add nothing (40_bigint_arithmetic.md R83). -/
theorem sum_partialProduct_of_ge (a b : Fwu) {extra : List (Nat × Nat)} (h : ∀ p ∈ extra, 24 ≤ p.1 + p.2) :
    (extra.map fun p => partialProduct a b p.1 p.2).sum = 0 :=
  List.sum_eq_zero fun x hx => by
    obtain ⟨p, hp, rfl⟩ := List.mem_map.mp hx
    exact partialProduct_eq_zero a b (h p hp)

/-- Settles O16: MUL is the product of the ring, and a sum of partial products has no order. -/
theorem mulValueLaw : Obligations.MulValueLaw := by
  unfold Obligations.MulValueLaw
  refine ⟨mul_toNat, fun a b => ?comm, fun a b c => ?assoc, fun a b c => ⟨?add, ?sub⟩,
    fun a b extra pairs h hp => ?order⟩
  case comm => rw [mul_eq, mul_eq, mul_comm]
  case assoc => rw [mul_eq, mul_eq, mul_eq, mul_eq, mul_assoc]
  case add => rw [mul_eq, mul_eq, mul_eq, add_eq, add_eq, mul_add]
  case sub => rw [mul_eq, mul_eq, mul_eq, sub_eq, sub_eq, mul_sub]
  case order =>
    rw [mul_eq_accumulate, accumulate_eq, accumulate_eq, (hp.map _).sum_eq, List.map_append, List.sum_append,
      sum_partialProduct_of_ge a b h, add_zero]

end Sys2Proof.Machine
end

section
/-! PROOFS. FIB as the Fibonacci sequence modulo 2^768, and where it is reduced or borrows
(41_fast_doubling_fib.md R102 to R106). -/

namespace Sys2Proof.Machine

theorem toNat_ne_zero {n : Scalar} (h : n ≠ 0) : n.toNat ≠ 0 := fun e => h (BitVec.eq_of_toNat_eq e)

theorem fibStart_eq_of_ne_zero {n : Scalar} (h : n ≠ 0) : fibStart = fibPairOf (n.toNat / 2 ^ msb n) := by
  rw [shift_msb h, fibStart_eq]

theorem msb_le (n : Scalar) : msb n ≤ 63 := by
  by_cases h : n = 0
  · subst h; decide
  · exact Nat.le_of_lt_succ ((Nat.log2_lt (toNat_ne_zero h)).mpr n.isLt)

/-- Settles O19: `msb` is the binary logarithm. -/
theorem msbIsHighestSetBit : Obligations.MsbIsHighestSetBit := by
  unfold Obligations.MsbIsHighestSetBit
  intro n hn
  have hle : 2 ^ msb n ≤ n.toNat := Nat.log2_self_le (toNat_ne_zero hn)
  have hlt : n.toNat < 2 ^ (msb n + 1) := Nat.lt_log2_self
  refine ⟨?_, fun m hm => ?_, hle, hlt, msb_le n⟩
  · -- The bits at and above `msb n` are worth 1.
    have hbit := shift_bit n (msb n)
    rw [shift_msb hn, Nat.div_eq_of_lt hlt] at hbit
    exact Bool.toNat_eq_one.mp (by omega)
  · exact Nat.testBit_lt_two_pow (hlt.trans_le (Nat.pow_le_pow_right two_pos hm))

/-- Settles O20: the intermediate `e` of R104 is `c + d`, formed where the bit is 1. -/
theorem fibIterationUsesTheUnits : Obligations.FibIterationUsesTheUnits := by
  unfold Obligations.FibIterationUsesTheUnits
  intro n i w
  cases hbit : n.getLsbD i <;> simp [fibIter, fibNext, fibTemps, hbit]

/-- The law of R105: FIB is the Fibonacci sequence modulo 2^768. -/
theorem fib_eq (n : Scalar) : fib n = fwu (Nat.fib n.toNat) := by
  unfold fib fibResult
  split_ifs with h0 h1
  · subst h0; exact fromSmallInteger_eq_fwu 0
  · subst h1; exact fromSmallInteger_eq_fwu 1
  · rw [fibStart_eq_of_ne_zero h0, fibLoop_eq]; rfl

theorem val_fib (n : Scalar) : val (fib n) = Nat.fib n.toNat % 2 ^ 768 := by rw [fib_eq, val_fwu]

/-- Settles O22, by the law of R105. -/
theorem fibRespondsWithFibonacciNumber : Obligations.FibRespondsWithFibonacciNumber := by
  unfold Obligations.FibRespondsWithFibonacciNumber
  exact fun k s => ⟨fib k, exec_of_value rfl s, val_fib k⟩

/-- FIB's loop keeps the pair of the bits scanned so far (41_fast_doubling_fib.md R105). -/
theorem iter_fib_pairOf (c : Command) (n : Scalar) (left : Nat) (t : FibTemps) {m : Nat} (hm : m ≤ left) :
    ∃ t', (localStep c)^[m] (.fib n left (fibPairOf (n.toNat / 2 ^ left)) t) =
      .fib n (left - m) (fibPairOf (n.toNat / 2 ^ (left - m))) t' := by
  induction m with
  | zero => exact ⟨t, rfl⟩
  | succ m ih =>
    obtain ⟨t', ht'⟩ := ih (by omega)
    obtain ⟨k, hk⟩ : ∃ k, left - m = k + 1 := ⟨left - m - 1, by omega⟩
    rw [Function.iterate_succ_apply', ht', hk, show left - (m + 1) = k by omega, localStep, fibNext_pairOf, ← shift_bit]
    exact ⟨_, rfl⟩

/-- Settles O23: at the start the highest bit is scanned, worth 1, and each iteration scans one bit more. -/
theorem fibLoopHoldsPairOfPrefix : Obligations.FibLoopHoldsPairOfPrefix := by
  unfold Obligations.FibLoopHoldsPairOfPrefix
  intro c n f m hn hm
  obtain ⟨t, ht⟩ := iter_fib_pairOf c n (msb n) (Config.freeFibTemps f) hm
  rw [localStart, fibStart_eq_of_ne_zero hn]
  exact ⟨_, t, ht, val_fwu _, val_fwu _⟩

/-! The largest index that is exact, and the first that is reduced. -/

theorem fib_1107_lt : Nat.fib 1107 < 2 ^ 768 := by rw [two_pow_768]; norm_num

theorem le_fib_1108 : 2 ^ 768 ≤ Nat.fib 1108 := by rw [two_pow_768]; norm_num

theorem fib_1108_lt : Nat.fib 1108 < 2 ^ 768 + 2 ^ 768 := by rw [two_pow_768]; norm_num

theorem val_fib_of_le {n : Scalar} (h : n.toNat ≤ 1107) : val (fib n) = Nat.fib n.toNat := by
  rw [val_fib, Nat.mod_eq_of_lt ((Nat.fib_mono h).trans_lt fib_1107_lt)]

theorem mod_of_le_of_lt_double {x m : Nat} (hle : m ≤ x) (hlt : x < m + m) : x % m = x - m := by
  rw [Nat.mod_eq_sub_mod hle, Nat.mod_eq_of_lt (by omega)]

/-- Settles O24: the sequence does not fall, F(1107) is below 2^768, and F(1108) is above it by less than 2^768. -/
theorem fibExactUpTo1107 : Obligations.FibExactUpTo1107 := by
  unfold Obligations.FibExactUpTo1107
  refine ⟨fun n h => val_fib_of_le h, fib_1107_lt, le_fib_1108, ?_⟩
  have hindex : (1108 : Scalar).toNat = 1108 := rfl
  rw [val_fib, hindex, mod_of_le_of_lt_double le_fib_1108 fib_1108_lt]

/-! The SUB of an iteration. -/

/-- The SUB of the iteration from the pair of `k` has its minuend below its subtrahend
(41_fast_doubling_fib.md R104, R106). -/
def pairBorrows (k : Nat) : Prop :=
  subBorrow (add (fibPairOf k).b (fibPairOf k).b) (fibPairOf k).a = 1

theorem pairBorrows_iff (k : Nat) :
    pairBorrows k ↔ 2 * Nat.fib (k + 1) % 2 ^ 768 < Nat.fib k % 2 ^ 768 := by
  rw [pairBorrows, subBorrow_eq_one_iff, add_toNat, fibPairOf, fwu_toNat, fwu_toNat, ← Nat.add_mod, two_mul]

/-- The loop borrows where one of its iterations does: the one at bit `j` is from the pair of the bits above it. -/
theorem fibLoopBorrows_iff (n : Scalar) (m : Nat) :
    fibLoopBorrows n m (fibPairOf (n.toNat / 2 ^ m)) = true ↔ ∃ j < m, pairBorrows (n.toNat / 2 ^ (j + 1)) := by
  induction m with
  | zero => simp [fibLoopBorrows]
  | succ m ih =>
    rw [fibLoopBorrows, fibIter_pairOf, Bool.or_eq_true, beq_iff_eq, ih, ← pairBorrows, Nat.exists_lt_succ_right,
      or_comm]

theorem fibBorrows_iff {n : Scalar} (h : n ≠ 0) :
    fibBorrows n = true ↔ ∃ j < msb n, pairBorrows (n.toNat / 2 ^ (j + 1)) := by
  rw [fibBorrows, fibStart_eq_of_ne_zero h, fibLoopBorrows_iff]

/-- Up to index 1105 the doubled F(k+1) is not reduced, so it is not below F(k). -/
theorem not_pairBorrows_of_le {k : Nat} (h : k ≤ 1105) : ¬ pairBorrows k := by
  have hcap : 2 * Nat.fib 1106 < 2 ^ 768 := by rw [two_pow_768]; norm_num
  have hmono : Nat.fib (k + 1) ≤ Nat.fib 1106 := Nat.fib_mono (by omega)
  have hle := fib_le_two_mul_succ k
  rw [pairBorrows_iff, Nat.mod_eq_of_lt (by omega), Nat.mod_eq_of_lt (by omega)]
  omega

theorem pairBorrows_1106 : pairBorrows 1106 := (pairBorrows_iff 1106).mpr (by rw [two_pow_768]; norm_num)

theorem fibBorrows_of_lt {n : Scalar} (h : n.toNat < 2212) : fibBorrows n = false := by
  by_cases h0 : n = 0
  · subst h0; rfl
  rw [← Bool.not_eq_true, fibBorrows_iff h0]
  rintro ⟨j, -, hj⟩
  have hhalf : n.toNat / 2 ^ (j + 1) ≤ n.toNat / 2 := by
    rw [pow_succ', ← Nat.div_div_eq_div_mul]
    exact Nat.div_le_self _ _
  exact not_pairBorrows_of_le (by omega) hj

/-- Settles O25: an iteration is from the pair of the bits above its own, which are worth less than 1106 for an index
below 2212, and for 2212 the last iteration is from the pair of 1106. -/
theorem fibFirstBorrowsAt2212 : Obligations.FibFirstBorrowsAt2212 := by
  unfold Obligations.FibFirstBorrowsAt2212
  exact ⟨fun n h => fibBorrows_of_lt h, (fibBorrows_iff (by decide)).mpr ⟨0, by decide, pairBorrows_1106⟩⟩

/-- Settles O26: a minuend not below its subtrahend does not borrow, and an index up to 1000 is below both bounds of
R106. -/
theorem contractKeptMeansExactResults : Obligations.ContractKeptMeansExactResults := by
  unfold Obligations.ContractKeptMeansExactResults
  refine ⟨fun a b (hle : val b ≤ val a) => ?_, fun k (hle : k.toNat ≤ 1000) => ?_⟩
  · exact ⟨(subBorrow_eq_zero_iff a b).mpr (Nat.not_lt.mpr hle), val_sub_of_le hle⟩
  · exact ⟨fibBorrows_of_lt (by omega), val_fib_of_le (by omega)⟩

end Sys2Proof.Machine
end

section
/-! PROOFS. `add_bit` digit by digit, from the least significant position up (42_decimal_formatter.md R125). -/

namespace Sys2Proof.Machine

/-- The decimal carry into position `p`: what adding at the positions below it carries out (R125). -/
def addCarryInto (dc : Bit) (ds : List Byte) (p : Nat) : Bit := (addDigits dc (ds.take p)).2

/-- With no carry `add_bit` stops. -/
theorem addDigits_zero (ds : List Byte) : addDigits 0 ds = (ds, 0) := by cases ds <;> rfl

/-- With a carry a position takes it, and hands its own to the position above. -/
theorem addDigits_one_cons (d : Byte) (ds : List Byte) :
    addDigits 1 (d :: ds) = (digitWrap (digitVal d + 1) :: (addDigits (digitCarry (digitVal d + 1)) ds).1,
      (addDigits (digitCarry (digitVal d + 1)) ds).2) := rfl

/-- One position of `add_bit`, by the carry into it (R125). -/
theorem addDigits_position (dc : Bit) {ds : List Byte} {p : Nat} (hp : p < ds.length) :
    if addCarryInto dc ds p = 1 then
      (addDigits dc ds).1[p]'(by rwa [addDigits_length]) = digitWrap (digitVal ds[p] + 1) ∧
        addCarryInto dc ds (p + 1) = digitCarry (digitVal ds[p] + 1)
    else
      (addDigits dc ds).1[p]'(by rwa [addDigits_length]) = ds[p] ∧ addCarryInto dc ds (p + 1) = 0 := by
  induction ds generalizing dc p with
  | nil => simp at hp
  | cons d ds ih =>
    rcases bit_zero_or_one dc with rfl | rfl
    · have hcarry (q : Nat) : addCarryInto 0 (d :: ds) q = 0 := by rw [addCarryInto, addDigits_zero]
      rw [hcarry, hcarry, if_neg (by decide)]
      exact ⟨by simp only [addDigits_zero], rfl⟩
    · cases p with
      | zero => exact ⟨rfl, rfl⟩
      | succ p =>
        simp only [addCarryInto, List.take_succ_cons, addDigits_one_cons, List.getElem_cons_succ]
        exact ih (digitCarry (digitVal d + 1)) (Nat.lt_of_succ_lt_succ hp)

/-- A units digit that stays below 10 takes the bit, and the positions above it do not change (R125). -/
theorem addDigits_of_le {bit : Bit} {ds : List Byte} (hpos : 0 < ds.length) (hd : isDigit ds[0] = true)
    (hle : digitVal ds[0] + bit.toNat ≤ 9) :
    (addDigits bit ds).1 = ds.set 0 (ascii (digitVal ds[0] + bit.toNat)) := by
  cases ds with
  | nil => simp at hpos
  | cons d ds =>
    rcases bit_zero_or_one bit with rfl | rfl
    · rw [addDigits_zero]
      exact congrArg (· :: ds) (ascii_digitVal hd).symm
    · have hlt : ¬ 10 ≤ digitVal d + 1 := Nat.not_le.mpr (Nat.lt_succ_of_le hle)
      rw [addDigits_one_cons, digitCarry, if_neg hlt, addDigits_zero, digitWrap, if_neg hlt]
      rfl

theorem allDigits_iff_getElem (D : Buffer) :
    AllDigits D.toList ↔ ∀ p (hp : p < 232), isDigit D[p] = true := by
  refine ⟨fun h p hp => h D[p] (by simp), fun h d hd => ?_⟩
  obtain ⟨p, hp, rfl⟩ := List.mem_iff_getElem.mp hd
  exact h p (by simpa using hp)

theorem addBit_getElem (D : Buffer) (bit : Bit) {p : Nat} (hp : p < 232) :
    (addBit D bit)[p] = (addDigits bit D.toList).1[p]'(by rw [addDigits_length]; simpa using hp) := rfl

theorem double_isDigit {D : Buffer} (hD : AllDigits D.toList) {p : Nat} (hp : p < 232) :
    isDigit (double D)[p] = true :=
  (allDigits_iff_getElem (double D)).mp (doubleDigits_spec 0 hD).1 p hp

/-- After `double` the units digit is even, so it is at most 8 (R124). -/
theorem double_units_le {D : Buffer} (hD : AllDigits D.toList) : digitVal (double D)[0] ≤ 8 := by
  have hx : digitVal D[0] ≤ 9 := digitVal_le ((allDigits_iff_getElem D).mp hD 0 (by norm_num))
  have hunits : (double D)[0] = digitWrap (2 * digitVal D[0]) := double_getElem D (by norm_num)
  obtain ⟨hdigit, hval⟩ := digitWrap_spec (x := 2 * digitVal D[0]) (by omega)
  have hle := digitVal_le hdigit
  rw [hunits]
  omega

/-- After `double` the bit goes into the units digit and no further (R125). -/
theorem addBit_double_getElem {D : Buffer} (hD : AllDigits D.toList) (bit : Bit) {p : Nat} (hp : p < 232) :
    (addBit (double D) bit)[p] =
      if p = 0 then ascii (digitVal (double D)[0] + bit.toNat) else (double D)[p] := by
  have hunits := double_units_le hD
  have hbit := bit_toNat_le bit
  have hset := addDigits_of_le (bit := bit) (ds := (double D).toList) (by simp)
    (double_isDigit hD (by norm_num)) (show digitVal (double D)[0] + bit.toNat ≤ 9 by omega)
  simp only [addBit_getElem, hset, List.getElem_set, Vector.getElem_toList, eq_comm (a := 0)]

/-- Settles O30: the carries are those into the positions, and after `double` there is none past the units. -/
theorem addBitCarriesDigitByDigit : Obligations.AddBitCarriesDigitByDigit := by
  unfold Obligations.AddBitCarriesDigitByDigit
  intro D bit hD
  have hdigits : AllDigits D.toList := (allDigits_iff_getElem D).mpr hD
  have hdouble {p : Nat} (hp : p < 232) := addBit_double_getElem hdigits bit hp
  have hunits := double_units_le hdigits
  have hbit := bit_toNat_le bit
  refine ⟨⟨fun p => (addCarryInto bit D.toList p).toNat, ?start, fun p hp => ?position⟩, ?units,
    fun p hp hpos => ?above⟩
  case start => simp [addCarryInto, addDigits]
  case position =>
    have hposition := addDigits_position bit (ds := D.toList) (p := p) (by simpa using hp)
    rw [addBit_getElem D bit hp]
    rcases bit_zero_or_one (addCarryInto bit D.toList p) with hc | hc
    · rw [hc, if_neg (by decide)] at hposition
      obtain ⟨hdigit, hcarry⟩ := hposition
      beta_reduce
      rw [hc, hcarry]
      exact ⟨hdigit, rfl⟩
    · rw [hc, if_pos rfl] at hposition
      obtain ⟨hdigit, hcarry⟩ := hposition
      have hle := digitVal_le (hD p hp)
      beta_reduce
      rw [hc, hcarry, hdigit]
      exact digit_position (x := digitVal D[p] + 1) (by omega)
  case units =>
    have hcode : (double D)[0].toNat = 0x30 + digitVal (double D)[0] := by
      rw [← ascii_toNat (by omega), ascii_digitVal (double_isDigit hdigits (by norm_num))]
    rw [hdouble (by norm_num), if_pos rfl, ascii_toNat (by omega), hcode, Nat.add_assoc]
  case above => rw [hdouble hp, if_neg (by omega)]

end Sys2Proof.Machine
end

section
/-! PROOFS. DEC as the standard decimal text of its operand (42_decimal_formatter.md R121, R127 to R130). -/

namespace Sys2Proof.Machine

/-! What `strip` leaves of a buffer. -/

theorem stripLen_le (D : Buffer) : stripLen D 232 ≤ 232 := by
  obtain ⟨-, hle, -⟩ := stripLen_spec D (n := 232) (by norm_num)
  exact hle

theorem stripped_len_toNat (D : Buffer) : (stripped D).len.toNat = stripLen D 232 := by
  have hle := stripLen_le D
  rw [stripped, stringResponse, BitVec.toNat_ofNat, Nat.mod_eq_of_lt (by omega)]

theorem stripped_str_toList (D : Buffer) : (stripped D).str.toList =
    (D.toList.take (stripLen D 232)).reverse ++ List.replicate (232 - stripLen D 232) 0 :=
  stripStr_toList D (stripLen_le D)

/-- The response of a buffer of digits is the standard decimal text of what it is worth (R126, R129). -/
theorem stripped_text {D : Buffer} (hD : AllDigits D.toList) :
    (stripped D).len.toNat = (decimalText (digitsVal D.toList)).length ∧
    (stripped D).str.toList = decimalText (digitsVal D.toList) ++
      List.replicate (232 - (decimalText (digitsVal D.toList)).length) 0 := by
  have hlen : (decimalText (digitsVal D.toList)).length = stripLen D 232 := by
    rw [← strip_text hD, List.length_reverse, List.length_take, buffer_length, min_eq_left (stripLen_le D)]
  rw [hlen, ← strip_text hD]
  exact ⟨stripped_len_toNat D, stripped_str_toList D⟩

/-! What the scan leaves in the buffer. -/

/-- A scan that covers the value leaves its digits (R127). -/
theorem decLoop_digits {v : Fwu} {m : Nat} (h : v.toNat < 2 ^ m) :
    AllDigits (decLoop v m).D.toList ∧ digitsVal (decLoop v m).D.toList = val v := by
  obtain ⟨hdigits, hval⟩ := decLoop_scanned h
  rw [pow_zero, Nat.div_one] at hval
  exact ⟨hdigits, hval⟩

/-- Scanning all 768 bits leaves the same buffer (R129). -/
theorem decLoop_768 (v : Fwu) : (decLoop v 768).D = (decLoop v (scanBits v)).D := by
  obtain ⟨hdigits, hval⟩ := decLoop_digits (m := 768) v.isLt
  obtain ⟨hdigits', hval'⟩ := decLoop_digits (lt_scanBits v)
  exact Vector.toList_inj.mp (digits_unique (by simp) hdigits hdigits' (hval.trans hval'.symm))

/-- DEC's text and length are the standard ones (R129). -/
theorem toDecimal_text (v : Fwu) :
    (toDecimal v).len.toNat = (decimalText (val v)).length ∧
    (toDecimal v).str.toList = decimalText (val v) ++ List.replicate (232 - (decimalText (val v)).length) 0 := by
  obtain ⟨hdigits, hval⟩ := decLoop_digits (lt_scanBits v)
  rw [← hval]
  exact stripped_text hdigits

theorem toDecimal_take (v : Fwu) : (toDecimal v).str.toList.take (toDecimal v).len.toNat = decimalText (val v) := by
  obtain ⟨hlen, hstr⟩ := toDecimal_text v
  rw [hlen, hstr, List.take_left]

/-- Settles O32, by the text and length of `to_decimal`. -/
theorem decRespondsWithDecimalText : Obligations.DecRespondsWithDecimalText := by
  unfold Obligations.DecRespondsWithDecimalText
  intro a s
  obtain ⟨hlen, hstr⟩ := toDecimal_text a
  exact ⟨toDecimal a, exec_eq (.dec a) s, rfl, rfl, hlen, hstr⟩

/-- Each micro-step of DEC scans one bit more of the value (R127). -/
theorem iter_dec_scanned (c : Command) {left m : Nat} (hm : m ≤ left) {w : DecWork} (h : Scanned c.a left w) :
    ∃ w', (localStep c)^[m] (.dec left w) = .dec (left - m) w' ∧ Scanned c.a (left - m) w' := by
  induction m with
  | zero => exact ⟨w, rfl, h⟩
  | succ m ih =>
    obtain ⟨w', hw', hs⟩ := ih (by omega)
    obtain ⟨k, hk⟩ : ∃ k, left - m = k + 1 := ⟨left - m - 1, by omega⟩
    rw [hk] at hw' hs
    rw [Function.iterate_succ_apply', hw', show left - (m + 1) = k by omega, localStep]
    exact ⟨_, rfl, hs.decBit.1⟩

/-- Settles O33: the buffer holds what is scanned so far, and doubling it loses nothing where a bit is left to scan. -/
theorem decBufferHoldsScannedPrefix : Obligations.DecBufferHoldsScannedPrefix := by
  unfold Obligations.DecBufferHoldsScannedPrefix
  intro c f m hm
  obtain ⟨w, hw, hs⟩ := iter_dec_scanned c hm (scanned_start (lt_scanBits c.a))
  refine ⟨w, hw, (allDigits_iff_getElem w.D).mp hs.1, (digitsVal_sum w.D).trans hs.2, fun hlt => ?_⟩
  rw [show scanBits c.a - m = scanBits c.a - (m + 1) + 1 by omega] at hs
  exact hs.decBit.2

theorem decimalText_length (x : Nat) : (decimalText x).length = if x = 0 then 1 else Nat.log 10 x + 1 := by
  unfold decimalText
  split
  · rfl
  case isFalse h => rw [List.length_reverse, List.length_map, Nat.length_digits 10 x (by norm_num) h]

/-- Settles O34: both scans leave the same buffer, and the text of `to_decimal` is the standard one. -/
theorem decEquivalentForms : Obligations.DecEquivalentForms := by
  unfold Obligations.DecEquivalentForms
  intro v
  obtain ⟨hlen, -⟩ := toDecimal_text v
  exact ⟨by rw [decLoop_768, toDecimal], toDecimal_take v, by rw [hlen, decimalText_length]⟩

/-! The capacity of the buffer. -/

theorem pow_231_lt : 10 ^ 231 < 2 ^ 768 := by rw [two_pow_768]; norm_num

theorem lt_pow_232 : 2 ^ 768 < 10 ^ 232 := by rw [two_pow_768]; norm_num

theorem toDecimal_len_le (v : Fwu) : (toDecimal v).len.toNat ≤ 232 := by
  rw [toDecimal, stripped_len_toNat]
  exact stripLen_le _

/-- DEC of the largest value uses all 232 digits: 10^231 is below it (R121). -/
theorem toDecimal_largest_len : (toDecimal (fwu (2 ^ 768 - 1))).len.toNat = 232 := by
  have hval : val (fwu (2 ^ 768 - 1)) = 2 ^ 768 - 1 := by
    rw [val_fwu, Nat.mod_eq_of_lt (Nat.sub_one_lt (Nat.two_pow_pos 768).ne')]
  have hlow : 10 ^ 231 ≤ 2 ^ 768 - 1 := Nat.le_sub_one_of_lt pow_231_lt
  have hhigh : 2 ^ 768 - 1 < 10 ^ 232 := (Nat.sub_le _ _).trans_lt lt_pow_232
  have hne : 2 ^ 768 - 1 ≠ 0 := (Nat.lt_of_lt_of_le (Nat.pow_pos (by norm_num)) hlow).ne'
  rw [(toDecimal_text _).1, decimalText_length, hval, if_neg hne,
    Nat.log_eq_of_pow_le_of_lt_pow hlow hhigh]

/-- Settles O35: the length of the largest value's text is that of its logarithm, and the scan loses no digit. -/
theorem digitBufferCapacityIsExact : Obligations.DigitBufferCapacityIsExact := by
  unfold Obligations.DigitBufferCapacityIsExact
  refine ⟨pow_231_lt, lt_pow_232, toDecimal_largest_len, ?_, fun v => ⟨toDecimal_len_le v, ?_⟩⟩
  · have hlen := toDecimal_largest_len
    rw [toDecimal, stripped_len_toNat, ← decLoop_768] at hlen
    obtain ⟨-, -, -, htop⟩ := stripLen_spec (decLoop (fwu (2 ^ 768 - 1)) 768).D (n := 232) (by norm_num)
    rw [hlen] at htop
    rw [← digitAt_eq_getElem _ (by norm_num)]
    exact htop (by norm_num)
  · exact (digitsVal_sum _).trans (decLoop_digits (lt_scanBits v)).2

/-! The boundary cases of 60_exceptions.md R161. -/

/-- A wrapped difference is 2^768 more than the difference (40_bigint_arithmetic.md R75). -/
theorem sub_of_lt {a b : Fwu} (h : val a < val b) : sub a b = fwu (val a + 2 ^ 768 - val b) := by
  have hexact := sub_with_borrow a b
  have hborrow : (subBorrow a b).toNat = 1 := by rw [(subBorrow_eq_one_iff a b).mpr h]; rfl
  rw [hborrow, Nat.one_mul] at hexact
  apply BitVec.eq_of_toNat_eq
  rw [val, val, hexact, Nat.add_sub_cancel, fwu_toNat, Nat.mod_eq_of_lt (sub a b).isLt]

/-- DEC of zero is the character '0' alone (42_decimal_formatter.md R128). -/
theorem toDecimal_zero : (toDecimal 0).len = 1 ∧ (toDecimal 0).str.toList = 0x30 :: List.replicate 231 0 := by
  have hval : val 0 = 0 := by simp [val]
  have htext : decimalText (val 0) = [0x30] := by rw [decimalText, if_pos hval]; rfl
  obtain ⟨hlen, hstr⟩ := toDecimal_text 0
  rw [htext] at hlen hstr
  exact ⟨BitVec.eq_of_toNat_eq hlen, hstr⟩

theorem toDecimal_zero_char {q : Nat} (hq : q < 232) : (toDecimal 0).str[q] = if q = 0 then 0x30 else 0 := by
  obtain ⟨-, hstr⟩ := toDecimal_zero
  rw [← Vector.getElem_toList (by simpa using hq), List.getElem_of_eq hstr, List.getElem_cons]
  split
  · rfl
  · exact List.getElem_replicate _

/-- Settles O17, by the values of SUB, SHLW and DEC at their boundaries. -/
theorem boundaryCasesRespondWithValues : Obligations.BoundaryCasesRespondWithValues := by
  unfold Obligations.BoundaryCasesRespondWithValues
  refine ⟨fun a b s h => ?sub, fun a k s h => ?shift, fun s => ?dec⟩
  case sub => rw [exec_eq, responseOf, sub_of_lt h]
  case shift => rw [exec_eq, responseOf, shiftWords_of_ge a h]
  case dec =>
    obtain ⟨hlen, -⟩ := toDecimal_zero
    exact ⟨_, exec_eq (.dec 0) s, rfl, hlen, toDecimal_zero_char (by norm_num),
      fun q hq hpos => (toDecimal_zero_char hq).trans (if_neg (Nat.ne_of_gt hpos))⟩

end Sys2Proof.Machine
end

section
/-! PROOFS. The response of each operation: its form (30_encoding.md R51), what it carries, and the frame of its
completion (50_host_interface.md R143, R145). -/

namespace Sys2Proof.Machine

/-! The form of a response, character by character. -/

theorem valueResponse_str (x : Fwu) {q : Nat} (hq : q < 232) : (valueResponse x).str[q] = 0 := by
  simp [valueResponse]

theorem stripped_str_getElem (D : Buffer) {q : Nat} (hq : q < 232) :
    (stripped D).str[q] = if q < stripLen D 232 then digitAt D (stripLen D 232 - 1 - q) else 0 :=
  stripStr_getElem D (stripLen D 232) hq

/-- The form of a STRING response whose buffer holds digits (R51). -/
theorem stripped_form {D : Buffer} (hD : AllDigits D.toList) :
    1 ≤ (stripped D).len.toNat ∧ (stripped D).len.toNat ≤ 232 ∧
    (∀ q (hq : q < 232), q < (stripped D).len.toNat → isDigit (stripped D).str[q] = true) ∧
    (∀ q (hq : q < 232), (stripped D).len.toNat ≤ q → (stripped D).str[q] = 0) := by
  obtain ⟨hpos, hle, -⟩ := stripLen_spec D (n := 232) (by norm_num)
  rw [stripped_len_toNat]
  refine ⟨hpos, hle, fun q hq hlt => ?_, fun q hq hge => ?_⟩
  · have hlast : stripLen D 232 - 1 - q < 232 := by omega
    rw [stripped_str_getElem D hq, if_pos hlt, digitAt_eq_getElem D hlast]
    exact (allDigits_iff_getElem D).mp hD _ hlast
  · rw [stripped_str_getElem D hq, if_neg (Nat.not_lt.mpr hge)]

/-- Settles O36: `exec_eq` gives the response, VALUE of the unit or the text of `to_decimal`. -/
theorem responseFormOfEachKind : Obligations.ResponseFormOfEachKind := by
  unfold Obligations.ResponseFormOfEachKind
  intro i s
  refine ⟨_, exec_eq i s, ?_⟩
  cases i with
  | dec a => exact ⟨rfl, ⟨rfl, stripped_form (decLoop_digits (lt_scanBits a)).1⟩, toDecimal_take a⟩
  | add | sub | shlw | mul | fib | seed => exact ⟨rfl, ⟨rfl, fun q hq => valueResponse_str _ hq⟩, rfl⟩

/-- Settles O37: `exec` answers what `respond` writes. -/
theorem completionFrame : Obligations.CompletionFrame := by
  unfold Obligations.CompletionFrame
  intro i s t h
  obtain rfl : s.respond (responseOf i) = t := Host.Outcome.next.inj ((exec_eq i s).symm.trans h)
  exact ⟨rfl, rfl, rfl, rfl, rfl, rfl, rfl⟩

/-! The form of a response as the invariant states it. -/

theorem wf_valueResponse (x : Fwu) : Response.wf (valueResponse x) = true := by
  have hkind : (valueResponse x).kind = .value := rfl
  have hlen : (valueResponse x).len = 0 := rfl
  simp only [Response.wf, hkind, hlen, Bool.and_eq_true, beq_iff_eq, List.all_eq_true]
  refine ⟨trivial, fun d hd => ?_⟩
  obtain ⟨q, hq, rfl⟩ := List.mem_iff_getElem.mp hd
  exact valueResponse_str x (by simpa using hq)

/-- The text of a buffer of digits has no leading zero but that of the text "0" (42_decimal_formatter.md R126). -/
theorem stripped_head_ne (D : Buffer) (h : 1 < (stripped D).len.toNat) :
    (stripped D).str.toList.head? ≠ some (ascii 0) := by
  obtain ⟨-, hle, -, htop⟩ := stripLen_spec D (n := 232) (by norm_num)
  rw [stripped_len_toNat] at h
  have hhead : (stripped D).str.toList.head? = some (digitAt D (stripLen D 232 - 1)) := by
    rw [List.head?_eq_getElem?, List.getElem?_eq_getElem (by simp), Vector.getElem_toList,
      stripped_str_getElem D (by norm_num), if_pos (by omega), Nat.sub_zero]
  rw [hhead]
  exact fun heq => htop h (Option.some.inj heq)

theorem wf_stripped {D : Buffer} (hD : AllDigits D.toList) : Response.wf (stripped D) = true := by
  obtain ⟨hpos, hle, hdigits, hpad⟩ := stripped_form hD
  have hkind : (stripped D).kind = .string := rfl
  have hval : (stripped D).val = 0 := rfl
  simp only [Response.wf, hkind, hval, Bool.and_eq_true, Bool.or_eq_true, beq_iff_eq, decide_eq_true_eq,
    List.all_eq_true, bne_iff_ne]
  refine ⟨⟨⟨⟨⟨trivial, hpos⟩, hle⟩, fun d hd => ?digit⟩, fun d hd => ?padding⟩, ?head⟩
  case digit =>
    obtain ⟨q, hq, rfl⟩ := List.mem_take_iff_getElem.mp hd
    exact hdigits q (by omega) (by omega)
  case padding =>
    obtain ⟨q, hq, rfl⟩ := List.mem_drop_iff_getElem.mp hd
    exact hpad _ (by simpa [Nat.add_comm] using hq) (by omega)
  case head =>
    obtain hone | hmore := Nat.eq_or_lt_of_le hpos
    · exact .inl (BitVec.eq_of_toNat_eq hone.symm)
    · exact .inr (stripped_head_ne D hmore)

theorem wf_responseOf (i : Instr) : Response.wf (responseOf i) = true := by
  cases i with
  | dec a => exact wf_stripped (decLoop_digits (lt_scanBits a)).1
  | add | sub | shlw | mul | fib | seed => exact wf_valueResponse _

end Sys2Proof.Machine
end

section
/-! PROOFS. The handshakes, and what an edge changes and leaves alone (50_host_interface.md R141 to R143;
70_reset_and_hazards.md R182, R186). -/

namespace Sys2Proof.Machine

/-- Settles O39: the reset state is IDLE. -/
theorem resetStateIsIdle : Obligations.ResetStateIsIdle := by
  unfold Obligations.ResetStateIsIdle
  exact ⟨rfl, cmdReady_of_idle rfl, rspValid_false_of_idle rfl⟩

theorem cmdReady_iff (s : State) : s.outputs.cmdReady = true ↔ s.phase = .idle := beq_iff_eq

/-- Settles O41: the handshakes are open in different phases. -/
theorem handshakesFollowPhase : Obligations.HandshakesFollowPhase := by
  unfold Obligations.HandshakesFollowPhase
  intro s
  refine ⟨cmdReady_iff s, rspValid_iff s, ?_, ?_, fun ⟨hacc, htake⟩ => ?_⟩
  · rw [accepting_iff, cmdReady_iff]
  · rw [taking_iff, rspValid_iff]
  · obtain ⟨-, hidle, -⟩ := (accepting_iff s).mp hacc
    obtain ⟨hdone, -⟩ := (taking_iff s).mp htake
    cases hidle.symm.trans hdone

/-- Settles O38, by the rows of the transition table: a reset, an acceptance, a completion and a taking write what the
clauses except, and the other rows only tick. -/
theorem edgeFrame : Obligations.EdgeFrame := by
  unfold Obligations.EdgeFrame
  intro s t h
  obtain ⟨hrst, rfl⟩ | ⟨-, hreset, -, row⟩ := step_cases h
  · -- Reset.
    have hnot (h : s.pins.rst = false) : False := ne_true_of_eq_false h hrst
    exact ⟨rfl, rfl, rfl, rfl, fun h => (hnot h).elim, fun h => (hnot h).elim, fun h => (hnot h).elim⟩
  obtain ⟨hacc, i, -, rfl⟩ | ⟨-, -, rfl⟩ | ⟨hbusy, hwait, i, -, rfl⟩ | ⟨hbusy, -, rfl⟩ | ⟨htake, rfl⟩ |
    ⟨-, -, rfl⟩ := row
  · -- Accepted.
    have hnot (h : s.accepting = false) : False := ne_true_of_eq_false h hacc
    exact ⟨hreset, rfl, rfl, rfl, fun _ h => (hnot h).elim, fun _ _ _ => rfl, fun _ h => (hnot h).elim⟩
  · -- Idle, nothing accepted.
    exact ⟨hreset, rfl, rfl, rfl, fun _ _ _ => rfl, fun _ _ _ => rfl, fun _ _ _ => rfl⟩
  · -- Completed.
    exact ⟨hreset, rfl, rfl, rfl, fun _ _ h => (h ⟨hbusy, hwait⟩).elim, fun _ _ h => (h ⟨hbusy, hwait⟩).elim,
      fun _ _ h => (h hbusy).elim⟩
  · -- Busy, latency not over.
    exact ⟨hreset, rfl, rfl, rfl, fun _ _ _ => rfl, fun _ _ _ => rfl, fun _ _ h => (h hbusy).elim⟩
  · -- Taken.
    have hnot (h : s.taking = false) : False := ne_true_of_eq_false h htake
    exact ⟨hreset, rfl, rfl, rfl, fun _ _ _ => rfl, fun _ h => (hnot h).elim, fun _ _ _ => rfl⟩
  · -- Done, nothing taken.
    exact ⟨hreset, rfl, rfl, rfl, fun _ _ _ => rfl, fun _ _ _ => rfl, fun _ _ _ => rfl⟩

/-- Settles O43: acceptance loads `wait`, and BUSY counts it down. -/
theorem busyCyclesFollowLatency : Obligations.BusyCyclesFollowLatency := by
  unfold Obligations.BusyCyclesFollowLatency
  intro s i hrst hreset hoffer
  refine ⟨fun hacc hdec => ?loads, fun hbusy hwait hdec => ?completes, fun hbusy hwait => ?counts⟩
  case loads => exact ⟨_, step_accept hrst hreset hoffer hacc hdec, rfl⟩
  case completes =>
    exact ⟨_, (step_complete hrst hreset hoffer hbusy hwait hdec).trans (exec_eq i s.tick), rfl⟩
  case counts =>
    exact ⟨_, step_wait hrst hreset hoffer hbusy hwait, hbusy, Nat.sub_add_cancel (Nat.pos_of_ne_zero hwait)⟩

/-- Outside an acceptance a tick leaves the offer made standing. -/
theorem tick_of_not_accepting {s : State} (h : s.accepting = false) :
    s.tick = { s with inputs := s.inputs.tail, offer := s.pins.offered, free := s.free + 1 } := by
  rw [State.tick, if_neg (ne_true_of_eq_false h)]

/-- Settles O46: nothing is accepted in BUSY. -/
theorem stepRunsDecodedOperation : Obligations.StepRunsDecodedOperation := by
  unfold Obligations.StepRunsDecodedOperation
  intro s i hrst hreset hoffer hbusy hwait hdec
  have hacc : s.accepting = false := accepting_false_of_phase (by simp [hbusy])
  rw [step_complete hrst hreset hoffer hbusy hwait hdec, tick_of_not_accepting hacc]

/-- Settles O56: the mark of a seen reset is false at power-up and true in every next state. -/
theorem noRuleBeforeTheFirstReset : Obligations.NoRuleBeforeTheFirstReset := by
  unfold Obligations.NoRuleBeforeTheFirstReset
  refine ⟨fun content hrst => ?_, fun content hrst => ?_, fun s t h => ?_, rfl⟩
  · exact step_neverReset hrst (State.powerUp_wasReset content)
  · exact ⟨_, step_reset hrst, State.resetEdge_phase _, State.resetEdge_wasReset _⟩
  · obtain ⟨hreset, -⟩ := edgeFrame s t h
    exact hreset

/-! Offers. -/

/-- Commands that are the same offer have one operation code and one decoding (70_reset_and_hazards.md R186). -/
theorem eq_of_sameOffer {c d : Command} (h : sameOffer c d = true) :
    d.op = c.op ∧ decodeCommand d = decodeCommand c := by
  obtain ⟨i, hc, hd⟩ | ⟨-, rfl⟩ := (sameOffer_iff c d).mp h
  · exact ⟨(decode_op hd).symm.trans (decode_op hc), hd.trans hc.symm⟩
  · exact ⟨rfl, rfl⟩

/-- A standing offer is kept where the same command is still offered. -/
theorem offerBroken_eq_false_iff {s : State} {c : Command} (h : s.offer = some c) :
    s.offerBroken = false ↔ s.pins.cmdValid = true ∧ sameOffer c s.pins.command = true := by
  rw [State.offerBroken, h, Pins.keeps, Bool.not_eq_false', Bool.and_eq_true]

theorem offered_of_valid {p : Pins} (h : p.cmdValid = true) : p.offered = some p.command := if_pos h

/-- Settles O48: an offer kept has the operation code and the decoding of the one that stands. -/
theorem unstableOfferIsRefused : Obligations.UnstableOfferIsRefused := by
  unfold Obligations.UnstableOfferIsRefused
  refine ⟨fun s t h hvalid hacc => ?stands, fun s c hrst hreset hoffer hbreak => ?refused,
    fun s c i hoffer hvalid hc hd => ?kept⟩
  case stands =>
    obtain ⟨-, -, -, hoffer, -⟩ := edgeFrame s t h
    rw [hoffer, if_neg (ne_true_of_eq_false hacc), offered_of_valid hvalid]
  case refused =>
    refine step_broken hrst hreset (eq_true_of_ne_false fun hkept => ?_)
    obtain ⟨hvalid, hsame⟩ := (offerBroken_eq_false_iff hoffer).mp hkept
    obtain ⟨hop, hdec⟩ := eq_of_sameOffer hsame
    obtain hwithdrawn | hop' | hdec' := hbreak
    · cases hvalid.symm.trans hwithdrawn
    · exact hop' hop
    · exact hdec' hdec
  case kept => exact (offerBroken_eq_false_iff hoffer).mpr ⟨hvalid, (sameOffer_iff c _).mpr (.inl ⟨i, hc, hd⟩)⟩

end Sys2Proof.Machine
end

section
/-! PROOFS. The invariants of BUSY and DONE, and the end of every loop (10_state.md R14, R15, R17;
50_host_interface.md R149). -/

namespace Sys2Proof.Machine

/-! Where a step that answers BUSY or DONE came from. -/

/-- A step that answers BUSY accepted a legal command, or advanced LOCAL. -/
theorem step_to_busy {s t : State} (h : step s = .next t) (hbusy : t.phase = .busy) :
    (∃ i f, decodeCommand t.cmd = .ok i ∧ t.loc = localStart i f) ∨
    (s.phase = .busy ∧ t.cmd = s.cmd ∧ ∃ m, t.loc = (localStep s.cmd)^[m] s.loc) := by
  obtain ⟨-, rfl⟩ | ⟨-, -, -, row⟩ := step_cases h
  · cases hbusy
  obtain ⟨-, i, hdec, rfl⟩ | ⟨hidle, -, rfl⟩ | ⟨-, -, i, -, rfl⟩ | ⟨hbusy', -, rfl⟩ | ⟨-, rfl⟩ | ⟨hdone, -, rfl⟩ := row
  · exact .inl ⟨i, _, hdec, rfl⟩
  · cases hidle.symm.trans hbusy
  · cases hbusy
  · exact .inr ⟨hbusy', rfl, _, rfl⟩
  · cases hbusy
  · cases hdone.symm.trans hbusy

/-- A step that answers DONE completed an operation, or held a response. -/
theorem step_to_done {s t : State} (h : step s = .next t) (hdone : t.phase = .done) :
    (∃ i, t.rsp = responseOf i) ∨ (s.phase = .done ∧ t.rsp = s.rsp) := by
  obtain ⟨-, rfl⟩ | ⟨-, -, -, row⟩ := step_cases h
  · cases hdone
  obtain ⟨-, i, -, rfl⟩ | ⟨hidle, -, rfl⟩ | ⟨-, -, i, -, rfl⟩ | ⟨hbusy, -, rfl⟩ | ⟨-, rfl⟩ | ⟨hdone', -, rfl⟩ := row
  · cases hdone
  · cases hidle.symm.trans hdone
  · exact .inl ⟨i, rfl⟩
  · cases hbusy.symm.trans hdone
  · cases hdone
  · exact .inr ⟨hdone', rfl⟩

/-! The way of LOCAL. -/

theorem onTrack_start {c : Command} {i : Instr} (hdec : decodeCommand c = .ok i) (f : Nat) :
    onTrack c (localStart i f) := ⟨i, f, 0, hdec, rfl⟩

theorem onTrack_iterate {c : Command} {l : Local} (h : onTrack c l) (n : Nat) : onTrack c ((localStep c)^[n] l) := by
  obtain ⟨i, f, m, hdec, rfl⟩ := h
  exact ⟨i, f, n + m, hdec, (Function.iterate_add_apply (localStep c) n m _).symm⟩

/-- Settles O49: the reset state is IDLE. -/
theorem invariantHoldsAtReset : Obligations.InvariantHoldsAtReset := by
  unfold Obligations.InvariantHoldsAtReset
  exact ⟨Phase.noConfusion, Phase.noConfusion⟩

/-- Settles O50: LOCAL starts its way at the acceptance and goes on along it, and every response that a completion
forms has its form. -/
theorem stepKeepsInvariant : Obligations.StepKeepsInvariant := by
  unfold Obligations.StepKeepsInvariant
  rintro s t ⟨htrack, hwf⟩ h
  refine ⟨fun hbusy => ?busy, fun hdone => ?done⟩
  case busy =>
    obtain ⟨i, f, hdec, hloc⟩ | ⟨hbusy', hcmd, m, hloc⟩ := step_to_busy h hbusy
    · rw [hloc]
      exact onTrack_start hdec f
    · rw [hloc, hcmd]
      exact onTrack_iterate (htrack hbusy') m
  case done =>
    obtain ⟨i, hrsp⟩ | ⟨hdone', hrsp⟩ := step_to_done h hdone <;> rw [hrsp]
    · exact wf_responseOf i
    · exact hwf hdone'

/-! The values of LOCAL. -/

theorem loopValues_iterate {c : Command} {i : Instr} (hdec : decodeCommand c = .ok i) {l : Local}
    (h : loopValues i l) (m : Nat) : loopValues i ((localStep c)^[m] l) :=
  Function.Iterate.rec (f := localStep c) (loopValues i) h (fun _ => localStep_loopValues hdec) m

/-- Settles O57: the reset state is IDLE. -/
theorem loopInvariantHoldsAtReset : Obligations.LoopInvariantHoldsAtReset := by
  unfold Obligations.LoopInvariantHoldsAtReset
  exact Phase.noConfusion

/-- Settles O58: LOCAL has its value when it starts, and every loop iteration keeps it. -/
theorem stepKeepsLoopInvariant : Obligations.StepKeepsLoopInvariant := by
  unfold Obligations.StepKeepsLoopInvariant
  intro s t hinv h hbusy
  obtain ⟨i, f, hdec, hloc⟩ | ⟨hbusy', hcmd, m, hloc⟩ := step_to_busy h hbusy
  · rw [hloc]
    exact ⟨i, hdec, loopValues_start i f⟩
  · obtain ⟨i, hdec, hvalues⟩ := hinv hbusy'
    rw [hloc, hcmd]
    exact ⟨i, hdec, loopValues_iterate hdec hvalues m⟩

/-- In BUSY nothing happens at the ports but a reset (50_host_interface.md R141, R142). -/
theorem event_of_busy {s : State} (hrst : s.pins.rst = false) (hbusy : s.phase = .busy) : s.event = .quiet :=
  event_quiet hrst (accepting_false_of_phase (by simp [hbusy])) (taking_false_of_phase (by simp [hbusy]))

/-- Settles O59, by the rows of the transition table and the event of each. -/
theorem stepCarriesTheCommandInside : Obligations.StepCarriesTheCommandInside := by
  unfold Obligations.StepCarriesTheCommandInside
  intro s t inside hs h
  obtain ⟨hrst, rfl⟩ | ⟨hrst, -, -, row⟩ := step_cases h
  · -- Reset.
    rw [event_reset hrst]
    rfl
  obtain ⟨hacc, i, hdec, rfl⟩ | ⟨hidle, hacc, rfl⟩ | ⟨hbusy, -, i, hdec, rfl⟩ | ⟨hbusy, -, rfl⟩ |
    ⟨htake, rfl⟩ | ⟨hdone, htake, rfl⟩ := row
  · -- Accepted.
    obtain ⟨-, hidle, -⟩ := (accepting_iff s).mp hacc
    rw [event_accepted hacc hdec]
    exact ⟨(holds_idle hidle inside).mp hs, i, rfl, hdec⟩
  · -- Idle, nothing accepted.
    rw [event_quiet hrst hacc (taking_false_of_phase (by simp [hidle]))]
    exact hs
  · -- Completed.
    obtain ⟨j, rfl, hdec'⟩ := (holds_busy hbusy inside).mp hs
    cases hdec.symm.trans hdec'
    rw [event_of_busy hrst hbusy]
    exact ⟨i, rfl, rfl⟩
  · -- Busy, latency not over.
    rw [event_of_busy hrst hbusy]
    exact hs
  · -- Taken.
    obtain ⟨hdone, -, -⟩ := (taking_iff s).mp htake
    rw [event_taken htake]
    exact ⟨(holds_done hdone inside).mp hs, rfl⟩
  · -- Done, nothing taken.
    rw [event_quiet hrst (accepting_false_of_phase (by simp [hdone])) htake]
    exact hs

/-! The end of a loop. -/

theorem pairsBelow_24 : pairsBelow 24 = 300 := by decide

/-- After its length a loop stands still, and LOCAL holds the operation's response (50_host_interface.md R149). -/
theorem loop_end {c : Command} {i : Instr} (hdec : decodeCommand c = .ok i) (f : Nat) :
    localStep c ((localStep c)^[loopLength i] (localStart i f)) = (localStep c)^[loopLength i] (localStart i f) ∧
      localResponse i ((localStep c)^[loopLength i] (localStart i f)) = some (responseOf i) := by
  have hread := decode_reads hdec
  cases i with
  | add a b =>
    obtain ⟨rfl, rfl⟩ := hread
    rw [loopLength, localStart, iter_add c le_rfl]
    exact ⟨rfl, rfl⟩
  | sub a b =>
    obtain ⟨rfl, rfl⟩ := hread
    rw [loopLength, localStart, iter_sub c le_rfl]
    exact ⟨rfl, rfl⟩
  | mul a b =>
    obtain ⟨rfl, rfl⟩ := hread
    obtain ⟨t, ht⟩ := iter_mul c le_rfl (Config.freeMulTemps f)
    rw [loopLength, localStart, ← pairsBelow_24, ht]
    exact ⟨rfl, rfl⟩
  | fib n =>
    obtain ⟨t, ht⟩ := iter_fib c n (msb n) fibStart (Config.freeFibTemps f)
    rw [loopLength, localStart, ht]
    exact ⟨rfl, rfl⟩
  | dec v =>
    obtain rfl : v = c.a := hread
    rw [loopLength, localStart, iter_dec]
    exact ⟨rfl, rfl⟩
  | shlw | seed => exact ⟨rfl, rfl⟩

/-- Settles O51: what is left of the loop and what is behind make the whole loop and iterations that stand still. -/
theorem workingStorageReachesTheResponse : Obligations.WorkingStorageReachesTheResponse := by
  unfold Obligations.WorkingStorageReachesTheResponse
  rintro s i ⟨htrack, -⟩ hbusy hdec
  obtain ⟨j, f, m, hdec', hloc⟩ := htrack hbusy
  cases hdec.symm.trans hdec'
  obtain ⟨hstill, hresponse⟩ := loop_end hdec f
  rw [hloc, ← Function.iterate_add_apply, Nat.add_comm, Function.iterate_add_apply, Function.iterate_fixed hstill,
    hresponse]

theorem scanBits_le (v : Fwu) : scanBits v ≤ 768 := by
  have hused (n : Nat) : usedWords v n ≤ n := by
    induction n with
    | zero => exact le_rfl
    | succ n ih =>
      unfold usedWords
      split
      · exact ih.trans n.le_succ
      · exact le_rfl
  exact Nat.mul_le_mul_left 32 (hused 24)

theorem loopLength_le (i : Instr) : loopLength i ≤ 768 := by
  cases i with
  | fib n => exact (msb_le n).trans (by norm_num)
  | dec v => exact scanBits_le v
  | add | sub | shlw | mul | seed => norm_num [loopLength]

/-- 2^9 <= 1000 < 2^10 (41_fast_doubling_fib.md R108). -/
theorem msb_1000 : msb 1000 = 9 := (Nat.log2_eq_iff (by decide)).mpr (by decide)

theorem mulPairs_length : mulPairs.length = 300 := by
  have hrows : mulPairs.length = pairsBelow 24 := by
    rw [mulPairs, List.length_flatMap]
    simp only [List.length_map, List.length_range]
    rfl
  rw [hrows, pairsBelow_24]

/-- Settles O52: the loops end within their lengths, and the lengths are bounded. -/
theorem everyLoopIsBounded : Obligations.EveryLoopIsBounded := by
  unfold Obligations.EveryLoopIsBounded
  exact ⟨fun c i f hdec => (loop_end hdec f).1, loopLength_le, msb_le, msb_1000,
    fun _ _ => Eq.symm mulPairs_length, mulPairs_length⟩

end Sys2Proof.Machine
end

section
/-! PROOFS. Runs: an accepted command completes (50_host_interface.md R146, R149), and an ended run stays ended
(R156). -/

namespace Sys2Proof.Machine

/-- A host that keeps its offers drives no reset and breaks no offer in this cycle, nor in those after it
(70_reset_and_hazards.md R186). -/
theorem hostKeeps_succ {s : State} {n : Nat} (h : hostKeeps s.offer (s.inputs.take (n + 1)) = true) :
    s.pins.rst = false ∧ s.offerBroken = false ∧ hostKeeps s.pins.offered (s.inputs.tail.take n) = true := by
  unfold State.offerBroken State.pins
  cases hinputs : s.inputs with
  | nil =>
    obtain ⟨hrst, hkeeps, -⟩ := keeps_standing s.offer
    exact ⟨hrst, by rw [hkeeps]; rfl, by simp [hostKeeps]⟩
  | cons p ps =>
    rw [hinputs] at h
    simpa [hostKeeps, and_assoc] using h

/-- A BUSY command completes once the cycles of its latency are over, with a host that keeps its offers. -/
theorem run_completes {i : Instr} (n : Nat) {s : State} (hbusy : s.phase = .busy) (hwait : s.wait = n)
    (hreset : s.wasReset = true) (hdec : decodeCommand s.cmd = .ok i)
    (hhost : hostKeeps s.offer (s.inputs.take (n + 1)) = true) :
    ∃ t, Host.Core.run Sys2Proof.core (n + 1) s = .next t ∧ t.phase = .done ∧ t.rsp = responseOf i := by
  obtain ⟨hrst, hoffer, hrest⟩ := hostKeeps_succ hhost
  induction n generalizing s with
  | zero =>
    have hstep := (step_complete hrst hreset hoffer hbusy hwait hdec).trans (exec_eq i s.tick)
    exact ⟨_, run_of_next (M := Sys2Proof.core) hstep, rfl, rfl⟩
  | succ n ih =>
    have hstep := step_wait hrst hreset hoffer hbusy (by omega)
    have hnext : hostKeeps s.tick.advance.offer (s.tick.advance.inputs.take (n + 1)) = true := by
      rw [State.advance_offer, State.tick_offer, accepting_false_of_phase (by simp [hbusy])]
      exact hrest
    obtain ⟨hrst', hoffer', hrest'⟩ := hostKeeps_succ hnext
    rw [run_of_next (M := Sys2Proof.core) hstep]
    exact ih hbusy (by simp [hwait]) hreset hdec hnext hrst' hoffer' hrest'

/-- Settles O53: the acceptance loads the latency, and the BUSY command completes after it. -/
theorem acceptedCommandCompletes : Obligations.AcceptedCommandCompletes := by
  unfold Obligations.AcceptedCommandCompletes
  intro s i hacc hreset hoffer hdec hhost
  obtain ⟨-, -, hrst⟩ := (accepting_iff s).mp hacc
  have hstep := step_accept hrst hreset hoffer hacc hdec
  have hempty : s.tick.offer = none := by rw [State.tick_offer, if_pos hacc]
  obtain ⟨t, hrun, hdone, hrsp⟩ := run_completes (s := s.tick.capture s.pins.command i)
    (Config.latency s.pins.command) rfl rfl hreset hdec (by rw [State.capture_offer, hempty]; exact hhost)
  refine ⟨t, (run_of_next (M := Sys2Proof.core) hstep).trans hrun, hdone, ?_⟩
  rw [outputs_of_done hdone]
  exact ⟨rfl, hrsp⟩

/-! The end of a run. -/

theorem runEnded_iff (s : State) : s.runEnded = true ↔
    s.wasReset = true ∧ s.phase = .idle ∧ s.offer = none ∧ ∀ p ∈ s.inputs, p.cmdValid = false := by
  simp [State.runEnded, and_assoc]

/-- In a cycle of an ended run no command is offered. -/
theorem cmdValid_of_runEnded {s : State} (h : s.runEnded = true) : s.pins.cmdValid = false := by
  obtain ⟨-, -, hoffer, hinputs⟩ := (runEnded_iff s).mp h
  unfold State.pins
  cases hs : s.inputs with
  | nil => rw [hoffer]; rfl
  | cons p ps => exact hinputs p (by simp [hs])

/-- After a step an ended run is still ended (50_host_interface.md R156). -/
theorem step_of_runEnded {s : State} (h : s.runEnded = true) : ∃ t, step s = .next t ∧ t.runEnded = true := by
  have hvalid := cmdValid_of_runEnded h
  obtain ⟨hreset, hidle, hoffer, hinputs⟩ := (runEnded_iff s).mp h
  have hacc : s.accepting = false := by simp [State.accepting, hvalid]
  have hstep : ∃ t, step s = .next t ∧ t.phase = .idle := by
    cases hrst : s.pins.rst with
    | true => exact ⟨_, step_reset hrst, rfl⟩
    | false =>
      have hkept : s.offerBroken = false := by rw [State.offerBroken, hoffer]; rfl
      exact ⟨_, step_idle hrst hreset hkept hidle hacc, hidle⟩
  obtain ⟨t, hnext, hidle'⟩ := hstep
  obtain ⟨hreset', hinputs', -, hoffer', -⟩ := edgeFrame s t hnext
  have hnone : t.offer = none := by simp [hoffer', Pins.offered, hvalid]
  refine ⟨t, hnext, (runEnded_iff t).mpr ⟨hreset', hidle', hnone, fun p hp => hinputs p ?_⟩⟩
  rw [hinputs'] at hp
  exact List.mem_of_mem_tail hp

/-- Settles O55: every step keeps the run ended, and an ended run is in IDLE. -/
theorem endedRunStaysEnded : Obligations.EndedRunStaysEnded := by
  unfold Obligations.EndedRunStaysEnded
  intro k s hended
  induction k generalizing s with
  | zero =>
    obtain ⟨-, hidle, -⟩ := (runEnded_iff s).mp hended
    exact ⟨s, rfl, hended, cmdReady_of_idle hidle, rspValid_false_of_idle hidle⟩
  | succ k ih =>
    obtain ⟨t, hstep, hended'⟩ := step_of_runEnded hended
    rw [run_of_next (M := Sys2Proof.core) hstep]
    exact ih t hended'

end Sys2Proof.Machine
end
